-- ==== Sys2Proof/Word.lean ====
section
/-! DEFINITION. The widths of this block (00_scope.md R7): the machine word, the byte, the opcode, a register field and
the 8-bit register index of the interface. Bit numbering is 00_scope.md R9: bit 0 is the least significant one. -/

namespace Sys2Proof

/-- A machine word, an instruction word and an address: 32 bits, unsigned (00_scope.md R7 and R11, 20_memory.md R51). -/
abbrev Word := BitVec 32

/-- One byte of memory (10_state.md R27). -/
abbrev Byte := BitVec 8

/-- The value of a 16-bit access (20_memory.md R58). -/
abbrev Half := BitVec 16

/-- The 7-bit opcode, bits 6:0 of a word (30_encoding.md R72). -/
abbrev Opcode := BitVec 7

/-- A 5-bit register field of a word (30_encoding.md R82). -/
abbrev RegField := BitVec 5

/-- The 8-bit index argument of the register file's operations (00_scope.md R7, 42_register_file.md R160). -/
abbrev RegIndex := BitVec 8

end Sys2Proof
end

