-- ==== Sys2Proof/Syntax.lean ====
section
/-! DEFINITION. The values the decoder speaks of: the six formats, their field names, the decoded Instruction of
10_state.md R30, the decode errors, and Instr, one constructor for each row of spec/opcode_table.json. -/

namespace Sys2Proof

/-- The result of an operation that returns a value or an error, as the source's Result (00_scope.md R13). -/
inductive Result (ε α : Type) where
  | ok (a : α)
  | err (e : ε)
deriving DecidableEq, Repr

/-- The six formats, in the order the source lists them (10_state.md R31). -/
inductive FormatKind where
  | R | R4 | I | B | L | J
deriving DecidableEq, Repr

/-- The names of the fields the formats extract (10_state.md R33, 41_decoder.md R142). -/
inductive FieldName where
  | rd | rs1 | rs2 | rs3 | imm | funct3 | funct5 | funct10 | offset
deriving DecidableEq, Repr

/-- A field's value with its width: raw bits, no sign (30_encoding.md R81, 00_scope.md R11). -/
structure FieldValue where
  width : Nat
  value : BitVec width
deriving DecidableEq, Repr

/-- The decoder's result (10_state.md R30): the word, its opcode and its format. No field is stored (R32).
The proof field is R30's invariant, that the opcode is always bits 6:0 of the word. -/
structure Instruction where
  bits : Word
  opcode : Opcode
  format : FormatKind
  opcode_eq : opcode = bits.extractLsb' 0 7
deriving DecidableEq, Repr

/-- The two ways decode fails (41_decoder.md R130). -/
inductive DecodeError where
  /-- Bits 1:0 are not 11 (60_exceptions.md R201). -/
  | unsupportedEncoding
  /-- The format table has no entry at the opcode (60_exceptions.md R202). -/
  | unknownOpcode
deriving DecidableEq, Repr

/-- A word's instruction by name: one constructor for each row of spec/opcode_table.json (41_decoder.md R143 to R152),
its operands the fields of the row's format, raw and unsigned, in the format's own widths. -/
inductive Instr where
  /-- LOAD, format I (R143). -/
  | load (rd rs1 : RegField) (imm : BitVec 12) (funct3 : BitVec 3)
  /-- OP-IMM, format I (R144). -/
  | opImm (rd rs1 : RegField) (imm : BitVec 12) (funct3 : BitVec 3)
  /-- AUIPC, format L (R145). -/
  | auipc (rd : RegField) (imm : BitVec 20)
  /-- STORE, format B (R146). -/
  | store (rs1 rs2 : RegField) (imm : BitVec 12) (funct3 : BitVec 3)
  /-- OP, format R (R147). -/
  | op (rd rs1 rs2 : RegField) (funct10 : BitVec 10)
  /-- LUI, format L (R148). -/
  | lui (rd : RegField) (imm : BitVec 20)
  /-- BRANCH, format B (R149). -/
  | branch (rs1 rs2 : RegField) (imm : BitVec 12) (funct3 : BitVec 3)
  /-- JALR, format I (R150). -/
  | jalr (rd rs1 : RegField) (imm : BitVec 12) (funct3 : BitVec 3)
  /-- JAL, format J, which has no register field (R151). -/
  | jal (offset : BitVec 25)
  /-- SYSTEM, format I (R152). -/
  | system (rd rs1 : RegField) (imm : BitVec 12) (funct3 : BitVec 3)
deriving DecidableEq, Repr

/-- Why a sequence of bytes gives no Instr. -/
inductive Reject where
  /-- Fewer than the four bytes of a word stand there (30_encoding.md R70). -/
  | truncated
  /-- The decoder's own error (41_decoder.md R130). -/
  | malformed (e : DecodeError)
  /-- The table accepts the word, and no row of spec/opcode_table.json has its opcode and format. Neither table of
  41_decoder.md has such an entry; a table of the caller's own may (R135). -/
  | unlisted (i : Instruction)
deriving DecidableEq, Repr

end Sys2Proof
end

