-- ==== Sys2Proof/Config.lean ====
section
/-! DEFINITION. The parameters the source leaves open and the model takes as arguments (00_scope.md R8). They are fixed
for the life of a machine (10_state.md R35). MEM_LEN, given at creation, stands in State (10_state.md R36). -/

namespace Sys2Proof

/-- FMT_TABLE: a partial map from opcodes to formats, as its list of entries (41_decoder.md R135). The table is data
(R138). -/
abbrev FmtTable := List (Opcode × FormatKind)

/-- PC_OVERFLOW: what pc_increment does when the sum does not fit in 32 bits (60_exceptions.md R209, decision D11). -/
inductive PcOverflow where
  | fault | wrap
deriving DecidableEq, Repr

/-- REG_INIT: what x1 to x31 and pc hold at creation (10_state.md R36 and R37, decisions D8 and D9). -/
inductive RegInit where
  | unwritten | zero
deriving DecidableEq, Repr

/-- The parameters of one machine instance. -/
structure Config where
  fmtTable : FmtTable
  pcOverflow : PcOverflow
  regInit : RegInit
deriving DecidableEq, Repr

end Sys2Proof
end

