-- ==== Sys2Proof/Decode.lean ====
section
/-! DEFINITION. The field extraction functions of 40_formats.md, the format tables and decode of 41_decoder.md, the
accessors of a decoded Instruction, and, after the decoder, the encoder written from 30_encoding.md's layouts. -/

namespace Sys2Proof

/-! Format R (30_encoding.md R74). -/

/-- 40_formats.md R101: bits 31:27. -/
def Formats.R.rd (w : Word) : RegField := w.extractLsb' 27 5
/-- R102: bits 26:22. -/
def Formats.R.rs1 (w : Word) : RegField := w.extractLsb' 22 5
/-- R103: bits 21:17. -/
def Formats.R.rs2 (w : Word) : RegField := w.extractLsb' 17 5
/-- R104: bits 16:7. -/
def Formats.R.funct10 (w : Word) : BitVec 10 := w.extractLsb' 7 10

/-! Format R4 (30_encoding.md R75). -/

/-- R105: bits 31:27. -/
def Formats.R4.rd (w : Word) : RegField := w.extractLsb' 27 5
/-- R106: bits 26:22. -/
def Formats.R4.rs1 (w : Word) : RegField := w.extractLsb' 22 5
/-- R107: bits 21:17. -/
def Formats.R4.rs2 (w : Word) : RegField := w.extractLsb' 17 5
/-- R108: bits 16:12. -/
def Formats.R4.rs3 (w : Word) : RegField := w.extractLsb' 12 5
/-- R109: bits 11:7. -/
def Formats.R4.funct5 (w : Word) : BitVec 5 := w.extractLsb' 7 5

/-! Format I (30_encoding.md R76). -/

/-- R110: bits 31:27. -/
def Formats.I.rd (w : Word) : RegField := w.extractLsb' 27 5
/-- R111: bits 26:22. -/
def Formats.I.rs1 (w : Word) : RegField := w.extractLsb' 22 5
/-- R112: bits 21:10, raw, not sign-extended. -/
def Formats.I.imm (w : Word) : BitVec 12 := w.extractLsb' 10 12
/-- R113: bits 9:7. -/
def Formats.I.funct3 (w : Word) : BitVec 3 := w.extractLsb' 7 3

/-! Format B (30_encoding.md R77; 90_conflicts.md C1 settles its layout). -/

/-- R114: bits 26:22. -/
def Formats.B.rs1 (w : Word) : RegField := w.extractLsb' 22 5
/-- R115: bits 21:17. -/
def Formats.B.rs2 (w : Word) : RegField := w.extractLsb' 17 5
/-- R116: (high << 7) OR low, with high bits 31:27 and low bits 16:10, neither permuted nor scaled. -/
def Formats.B.imm (w : Word) : BitVec 12 := (w.extractLsb' 27 5).setWidth 12 <<< 7 ||| (w.extractLsb' 10 7).setWidth 12
/-- R117: bits 9:7. -/
def Formats.B.funct3 (w : Word) : BitVec 3 := w.extractLsb' 7 3

/-! Format L (30_encoding.md R78). -/

/-- R118: bits 31:27. -/
def Formats.L.rd (w : Word) : RegField := w.extractLsb' 27 5
/-- R119: bits 26:7, the raw field, not placed in a word's upper bits. -/
def Formats.L.imm (w : Word) : BitVec 20 := w.extractLsb' 7 20

/-! Format J (30_encoding.md R79). -/

/-- R120: bits 31:7. -/
def Formats.J.offset (w : Word) : BitVec 25 := w.extractLsb' 7 25

/-- R121: bits 6:0, the same in every format (30_encoding.md R72). -/
def opcodeOf (w : Word) : Opcode := w.extractLsb' 0 7

/-- A raw field with its width. -/
def FieldValue.of {n : Nat} (v : BitVec n) : FieldValue := ⟨n, v⟩

/-- The extraction function of one format and field, where the format has that field (the field lists of
41_decoder.md R142); none where it has not. -/
def extract (k : FormatKind) (f : FieldName) (w : Word) : Option FieldValue :=
  match k, f with
  | .R, .rd => some (.of (Formats.R.rd w))
  | .R, .rs1 => some (.of (Formats.R.rs1 w))
  | .R, .rs2 => some (.of (Formats.R.rs2 w))
  | .R, .funct10 => some (.of (Formats.R.funct10 w))
  | .R4, .rd => some (.of (Formats.R4.rd w))
  | .R4, .rs1 => some (.of (Formats.R4.rs1 w))
  | .R4, .rs2 => some (.of (Formats.R4.rs2 w))
  | .R4, .rs3 => some (.of (Formats.R4.rs3 w))
  | .R4, .funct5 => some (.of (Formats.R4.funct5 w))
  | .I, .rd => some (.of (Formats.I.rd w))
  | .I, .rs1 => some (.of (Formats.I.rs1 w))
  | .I, .imm => some (.of (Formats.I.imm w))
  | .I, .funct3 => some (.of (Formats.I.funct3 w))
  | .B, .rs1 => some (.of (Formats.B.rs1 w))
  | .B, .rs2 => some (.of (Formats.B.rs2 w))
  | .B, .imm => some (.of (Formats.B.imm w))
  | .B, .funct3 => some (.of (Formats.B.funct3 w))
  | .L, .rd => some (.of (Formats.L.rd w))
  | .L, .imm => some (.of (Formats.L.imm w))
  | .J, .offset => some (.of (Formats.J.offset w))
  | _, _ => none

/-- The numeric code of a format (10_state.md R31, decision D3). -/
def FormatKind.code : FormatKind → BitVec 3
  | .R => 0
  | .R4 => 1
  | .I => 2
  | .B => 3
  | .L => 4
  | .J => 5

/-! The opcodes. LOAD's is the source's; the other nine are the spec's own choice (41_decoder.md R137, decision D6). -/

def opcLoad : Opcode := 0b0000011
def opcOpImm : Opcode := 0b0010011
def opcAuipc : Opcode := 0b0010111
def opcStore : Opcode := 0b0100011
def opcOp : Opcode := 0b0110011
def opcLui : Opcode := 0b0110111
def opcBranch : Opcode := 0b1100011
def opcJalr : Opcode := 0b1100111
def opcJal : Opcode := 0b1101111
def opcSystem : Opcode := 0b1110011

/-- The default table, the mapping the source says is implemented (41_decoder.md R136). -/
def yarvisObserved : FmtTable := [(opcLoad, .I)]

/-- The spec's optional table (41_decoder.md R137). -/
def rv32iExtended : FmtTable :=
  [(opcLoad, .I), (opcOpImm, .I), (opcAuipc, .L), (opcStore, .B), (opcOp, .R),
   (opcLui, .L), (opcBranch, .B), (opcJalr, .I), (opcJal, .J), (opcSystem, .I)]

/-- FMT_TABLE(opcode), none where the table is undefined (41_decoder.md R132). -/
def FmtTable.formatOf (t : FmtTable) (o : Opcode) : Option FormatKind :=
  match t with
  | [] => none
  | e :: rest => if e.1 = o then some e.2 else FmtTable.formatOf rest o

/-- The Instruction of a word in a format (41_decoder.md R133). -/
def Instruction.ofWord (w : Word) (k : FormatKind) : Instruction :=
  { bits := w, opcode := opcodeOf w, format := k, opcode_eq := rfl }

/-- decode(word), 41_decoder.md R130: the length check (R131), then the table (R132), then construction (R133). It reads
no state (R134). -/
def decodeWord (t : FmtTable) (w : Word) : Result DecodeError Instruction :=
  if w.extractLsb' 0 2 ≠ 0b11#2 then .err .unsupportedEncoding
  else
    match t.formatOf (opcodeOf w) with
    | none => .err .unknownOpcode
    | some k => .ok (Instruction.ofWord w k)

/-- A field accessor of an Instruction (41_decoder.md R142): its format's extraction function on its bits, none where
the format lacks the field. -/
def Instruction.field (i : Instruction) (f : FieldName) : Option FieldValue := extract i.format f i.bits

/-- The instruction by name that an Instruction stands for, none where no row of the opcode table has its opcode and
format. Operands are the format's extraction functions on the bits. -/
def Instruction.toInstr (i : Instruction) : Option Instr :=
  match i.format with
  | .R =>
    if i.opcode = opcOp then
      some (.op (Formats.R.rd i.bits) (Formats.R.rs1 i.bits) (Formats.R.rs2 i.bits) (Formats.R.funct10 i.bits))
    else none
  | .R4 => none
  | .I =>
    if i.opcode = opcLoad then
      some (.load (Formats.I.rd i.bits) (Formats.I.rs1 i.bits) (Formats.I.imm i.bits) (Formats.I.funct3 i.bits))
    else if i.opcode = opcOpImm then
      some (.opImm (Formats.I.rd i.bits) (Formats.I.rs1 i.bits) (Formats.I.imm i.bits) (Formats.I.funct3 i.bits))
    else if i.opcode = opcJalr then
      some (.jalr (Formats.I.rd i.bits) (Formats.I.rs1 i.bits) (Formats.I.imm i.bits) (Formats.I.funct3 i.bits))
    else if i.opcode = opcSystem then
      some (.system (Formats.I.rd i.bits) (Formats.I.rs1 i.bits) (Formats.I.imm i.bits) (Formats.I.funct3 i.bits))
    else none
  | .B =>
    if i.opcode = opcStore then
      some (.store (Formats.B.rs1 i.bits) (Formats.B.rs2 i.bits) (Formats.B.imm i.bits) (Formats.B.funct3 i.bits))
    else if i.opcode = opcBranch then
      some (.branch (Formats.B.rs1 i.bits) (Formats.B.rs2 i.bits) (Formats.B.imm i.bits) (Formats.B.funct3 i.bits))
    else none
  | .L =>
    if i.opcode = opcAuipc then some (.auipc (Formats.L.rd i.bits) (Formats.L.imm i.bits))
    else if i.opcode = opcLui then some (.lui (Formats.L.rd i.bits) (Formats.L.imm i.bits))
    else none
  | .J => if i.opcode = opcJal then some (.jal (Formats.J.offset i.bits)) else none

/-- A word's instruction by name under a table. -/
def decodeInstr (t : FmtTable) (w : Word) : Result Reject Instr :=
  match decodeWord t w with
  | .err e => .err (.malformed e)
  | .ok i =>
    match i.toInstr with
    | none => .err (.unlisted i)
    | some j => .ok j

/-- A field's bits at their place in a word, the field's bit 0 at bit lo. -/
def place {n : Nat} (lo : Nat) (v : BitVec n) : Word := v.setWidth 32 <<< lo

/-- Four bytes as a word, the first the least significant (20_memory.md R52 and R65). -/
def wordOfBytes (b0 b1 b2 b3 : Byte) : Word := place 24 b3 ||| place 16 b2 ||| place 8 b1 ||| place 0 b0

/-- A word's four bytes in the order memory holds them (20_memory.md R52). -/
def bytesOfWord (w : Word) : List Byte :=
  [w.extractLsb' 0 8, w.extractLsb' 8 8, w.extractLsb' 16 8, w.extractLsb' 24 8]

/-- The instruction at the head of a sequence of bytes, with the bytes after it. Every instruction has four bytes
(30_encoding.md R70). -/
def decodeBytes (t : FmtTable) (bs : List Byte) : Result Reject (Instr × List Byte) :=
  match bs with
  | b0 :: b1 :: b2 :: b3 :: rest =>
    match decodeInstr t (wordOfBytes b0 b1 b2 b3) with
    | .ok i => .ok (i, rest)
    | .err e => .err e
  | _ => .err .truncated

/-! The encoder, from the layouts of 30_encoding.md R74 to R79, highest field first. -/

/-- Format R (R74). -/
def encodeR (rd rs1 rs2 : RegField) (funct10 : BitVec 10) (o : Opcode) : Word :=
  place 27 rd ||| place 22 rs1 ||| place 17 rs2 ||| place 7 funct10 ||| place 0 o

/-- Format R4 (R75). No row of the opcode table uses it (R85). -/
def encodeR4 (rd rs1 rs2 rs3 : RegField) (funct5 : BitVec 5) (o : Opcode) : Word :=
  place 27 rd ||| place 22 rs1 ||| place 17 rs2 ||| place 12 rs3 ||| place 7 funct5 ||| place 0 o

/-- Format I (R76). -/
def encodeI (rd rs1 : RegField) (imm : BitVec 12) (funct3 : BitVec 3) (o : Opcode) : Word :=
  place 27 rd ||| place 22 rs1 ||| place 10 imm ||| place 7 funct3 ||| place 0 o

/-- Format B (R77): the immediate's bits 11:7 on top, its bits 6:0 below rs2. -/
def encodeB (rs1 rs2 : RegField) (imm : BitVec 12) (funct3 : BitVec 3) (o : Opcode) : Word :=
  place 27 (imm.extractLsb' 7 5) ||| place 22 rs1 ||| place 17 rs2 ||| place 10 (imm.extractLsb' 0 7) ||| place 7 funct3
    ||| place 0 o

/-- Format L (R78). -/
def encodeL (rd : RegField) (imm : BitVec 20) (o : Opcode) : Word := place 27 rd ||| place 7 imm ||| place 0 o

/-- Format J (R79). -/
def encodeJ (offset : BitVec 25) (o : Opcode) : Word := place 7 offset ||| place 0 o

/-- The opcode of an instruction's row (spec/opcode_table.json, match). -/
def Instr.opcode : Instr → Opcode
  | .load _ _ _ _ => opcLoad
  | .opImm _ _ _ _ => opcOpImm
  | .auipc _ _ => opcAuipc
  | .store _ _ _ _ => opcStore
  | .op _ _ _ _ => opcOp
  | .lui _ _ => opcLui
  | .branch _ _ _ _ => opcBranch
  | .jalr _ _ _ _ => opcJalr
  | .jal _ => opcJal
  | .system _ _ _ _ => opcSystem

/-- The format of an instruction's row (spec/opcode_table.json, format). -/
def Instr.format : Instr → FormatKind
  | .load _ _ _ _ => .I
  | .opImm _ _ _ _ => .I
  | .auipc _ _ => .L
  | .store _ _ _ _ => .B
  | .op _ _ _ _ => .R
  | .lui _ _ => .L
  | .branch _ _ _ _ => .B
  | .jalr _ _ _ _ => .I
  | .jal _ => .J
  | .system _ _ _ _ => .I

/-- The word of an instruction. -/
def encode : Instr → Word
  | .load rd rs1 imm funct3 => encodeI rd rs1 imm funct3 opcLoad
  | .opImm rd rs1 imm funct3 => encodeI rd rs1 imm funct3 opcOpImm
  | .auipc rd imm => encodeL rd imm opcAuipc
  | .store rs1 rs2 imm funct3 => encodeB rs1 rs2 imm funct3 opcStore
  | .op rd rs1 rs2 funct10 => encodeR rd rs1 rs2 funct10 opcOp
  | .lui rd imm => encodeL rd imm opcLui
  | .branch rs1 rs2 imm funct3 => encodeB rs1 rs2 imm funct3 opcBranch
  | .jalr rd rs1 imm funct3 => encodeI rd rs1 imm funct3 opcJalr
  | .jal offset => encodeJ offset opcJal
  | .system rd rs1 imm funct3 => encodeI rd rs1 imm funct3 opcSystem

/-- The word of a row of the opcode table: its nbits low bits, every bit above them 0. -/
def tableWord (nbits w : Nat) : Word := BitVec.ofNat 32 (w % 2 ^ nbits)

/-- The instruction the decoder reads from a word numbered as spec/opcode_table.json numbers it, under the table that
holds every row (41_decoder.md R137). -/
def decodeTableWord (nbits w : Nat) : Option Instr :=
  match decodeBytes rv32iExtended (bytesOfWord (tableWord nbits w)) with
  | .ok (i, _) => some i
  | .err _ => none

end Sys2Proof
end

