-- ==== Sys2Proof/WellFormed.lean ====
section
/-! DEFINITION. What a format table and an instruction must satisfy. Every operand of Instr already has its field's own
width, and no field value makes a word illegal (30_encoding.md R87), so an instruction is well-formed under a table
exactly when the table gives its opcode its format. -/

namespace Sys2Proof

/-- An entry's opcode ends in 11: a table with another entry is refused (41_decoder.md R135, 60_exceptions.md R207). -/
abbrev FmtTable.reachable (t : FmtTable) : Prop := ∀ e ∈ t, e.1.extractLsb' 0 2 = 0b11#2

/-- A table is a partial map (41_decoder.md R135): one entry an opcode. -/
abbrev FmtTable.functional (t : FmtTable) : Prop := (t.map Prod.fst).Nodup

/-- A well-formed table. -/
abbrev FmtTable.wf (t : FmtTable) : Prop := t.reachable ∧ t.functional

/-- A length Memory::new accepts (43_memory_ops.md R170). -/
abbrev LengthOk (length : Nat) : Prop := length ≤ 2 ^ 32

/-- An instruction the table admits with the format of its row (41_decoder.md R132, R144 to R152). -/
abbrev Instr.wf (t : FmtTable) (i : Instr) : Prop := t.formatOf i.opcode = some i.format

end Sys2Proof
end

