-- ==== Sys2Proof/Machine/State.lean ====
section
/-! DEFINITION. The state of one machine instance (10_state.md), the caller's side of its interface, and the reasons a
step can stop. -/

namespace Sys2Proof.Machine

/-- Memory as the bytes that differ from what an unlisted address reads as, addresses strictly rising. An unlisted
address reads as 0x00 (10_state.md R27 and R36, 20_memory.md R62). -/
abbrev Memory := List Host.Cell

/-- The canonical form: addresses strictly rising, no entry equal to what an unlisted address reads as. -/
abbrev Memory.wf (m : Memory) : Prop := m.Pairwise (fun c d => c.1 < d.1) ∧ ∀ c ∈ m, c.2 ≠ 0#8

/-- The errors the block returns to its caller: exact outcomes that change no state (60_exceptions.md R205). -/
inductive ReturnedError where
  /-- UnsupportedEncoding or UnknownOpcode, from decode (R201, R202). -/
  | decode (e : DecodeError)
  /-- OutOfBounds, from a memory access (R203). -/
  | outOfBounds
deriving DecidableEq, Repr

/-- One call of one interface operation (10_state.md R33): an atomic transaction (70_reset_and_hazards.md R236).
Memory::new makes an instance and is Machine.create. -/
inductive Transaction where
  /-- decode(word) (41_decoder.md R130). -/
  | decode (w : Word)
  /-- Instruction::opcode() (R140). -/
  | instrOpcode (i : Instruction)
  /-- Instruction::format() (R141). -/
  | instrFormat (i : Instruction)
  /-- A field accessor of an Instruction (R142). -/
  | instrField (i : Instruction) (f : FieldName)
  /-- A format's extraction function on a word (40_formats.md R101 to R120). -/
  | extractField (k : FormatKind) (f : FieldName) (w : Word)
  /-- opcode(w) (40_formats.md R121). -/
  | extractOpcode (w : Word)
  /-- read(n) (42_register_file.md R160). -/
  | regRead (n : RegIndex)
  /-- write(n, val) (R161). -/
  | regWrite (n : RegIndex) (v : Word)
  /-- pc read (R162). -/
  | pcRead
  /-- pc write (R163). -/
  | pcWrite (v : Word)
  /-- pc_increment() (R164). -/
  | pcIncrement
  /-- A read of fsr, refused (R165). -/
  | fsrRead
  /-- A write of fsr, refused (R165). -/
  | fsrWrite (v : Word)
  /-- read_u8(addr) (43_memory_ops.md R171). -/
  | readU8 (a : Word)
  /-- read_u16(addr) (R172). -/
  | readU16 (a : Word)
  /-- read_u32(addr) (R173). -/
  | readU32 (a : Word)
  /-- write_u8(addr, v) (R174). -/
  | writeU8 (a : Word) (v : Byte)
  /-- write_u16(addr, v) (R175). -/
  | writeU16 (a : Word) (v : Half)
  /-- write_u32(addr, v) (R176). -/
  | writeU32 (a : Word) (v : Word)
deriving DecidableEq, Repr

/-- What an operation hands back to its caller (10_state.md R33). -/
inductive Reply where
  /-- An operation with no result has ended. -/
  | done
  | byte (v : Byte)
  | half (v : Half)
  | word (v : Word)
  | instruction (i : Instruction)
  | opcode (o : Opcode)
  | format (k : FormatKind)
  | field (v : FieldValue)
  /-- A returned error (60_exceptions.md R205). -/
  | err (e : ReturnedError)
deriving DecidableEq, Repr

/-- One machine instance and its caller. -/
structure State where
  /-- The instance's parameters (00_scope.md R8, 10_state.md R35). No operation changes them. -/
  cfg : Config
  /-- MEM_LEN, fixed at creation (10_state.md R27). -/
  memLen : Nat
  /-- The byte array mem[0..MEM_LEN) (R27). -/
  mem : Memory
  /-- The raw register cells x[0] to x[31] (R20). Registers are reached through readReg and writeReg. -/
  x : Vector Word 32
  /-- The written flag of each register cell (R37), read only under REG_INIT = unwritten. -/
  written : Vector Bool 32
  /-- The program counter (R24). -/
  pc : Word
  /-- The written flag of pc (R37). -/
  writtenPc : Bool
  /-- The status word (R25). No operation reads or writes it. -/
  fsr : Word
  /-- MODEL. The transactions the caller has still to issue, next first (70_reset_and_hazards.md R236). -/
  script : List Transaction
  /-- MODEL. What the block has handed to its caller, newest first: one reply for each transaction of the script, and
  the Instruction the reference loop gives the external executor (00_scope.md R6), and the error that ended a run. -/
  replies : List Reply
  /-- MODEL. The error that ended the run of the reference loop, none while none has (70_reset_and_hazards.md R239). -/
  ended : Option ReturnedError
deriving DecidableEq, Repr

/-- Why a step ends in a fault. A returned error is no fault (60_exceptions.md R205 and R206). -/
inductive Fault where
  /-- A register index of 32 or more (60_exceptions.md R208). Raised by readReg and writeReg; safe: the machine stops. -/
  | regIndexOutOfRange
  /-- A register or pc read before anything wrote it, under REG_INIT = unwritten (10_state.md R37, 60_exceptions.md R204
  and R206; decisions D8 and D9). Raised by readReg, readPc and pcIncrement; safe: the model stops, as the spec says, where
  the hardware goes on with a value the source does not state. Never met under REG_INIT = zero, as at reset. -/
  | unwrittenRead
  /-- pc_increment past 2^32 - 1 under PC_OVERFLOW = fault (R209). Raised by pcIncrement; safe: the model stops where the
  source states no sum. -/
  | pcOverflow
deriving DecidableEq, Repr

/-- Why an operation has no meaning (60_exceptions.md R207). -/
inductive Refusal where
  /-- An instruction whose meaning the model has not got. Raised by no arm; safe. -/
  | notModelled (mnemonic : String)
  /-- A read or write of fsr (42_register_file.md R165). Raised by the interface; safe: no value is invented. -/
  | fsrAccess
  /-- A field the format lacks (41_decoder.md R142). Raised by the interface; safe: no value is invented. -/
  | fieldNotOfFormat
  /-- Memory::new with a length above 2^32 (43_memory_ops.md R170). Raised by create; safe: no machine is made. -/
  | memoryTooLong
  /-- A format table that is not well-formed (41_decoder.md R135). Raised by create; safe: no machine is made. -/
  | malformedTable
deriving DecidableEq, Repr

/-- The value of every piece of state at creation (10_state.md R36): memory all zero, every written flag clear. The
cells of x1 to x31, pc and fsr hold 0: R36's value under REG_INIT = zero, a value no read can see under
REG_INIT = unwritten, and the model's own choice for fsr, which no operation reads. -/
def State.atCreation (cfg : Config) (length : Nat) : State :=
  { cfg := cfg
    memLen := length
    mem := []
    x := Vector.replicate 32 0#32
    written := Vector.replicate 32 false
    pc := 0#32
    writtenPc := false
    fsr := 0#32
    script := []
    replies := []
    ended := none }

/-- The parameters of the machine right after reset: the table that holds every row of spec/opcode_table.json
(41_decoder.md R137, the spec's optional table, not the observed one), PC_OVERFLOW at its default, REG_INIT = zero. -/
def resetConfig : Config := { fmtTable := rv32iExtended, pcOverflow := .fault, regInit := .zero }

/-- The machine right after reset, which is creation (70_reset_and_hazards.md R230): the whole address space
(20_memory.md R51), nothing loaded, no transaction waiting. -/
def State.reset : State := State.atCreation resetConfig (2 ^ 32)

end Sys2Proof.Machine
end

