-- ==== Sys2Proof/Machine/Ops.lean ====
section
/-! DEFINITION. The named operations over memory (20_memory.md, 43_memory_ops.md), the register file and pc
(42_register_file.md), creation, and how an operation's error is reported (60_exceptions.md). The block has no trap
entry and no trap return (60_exceptions.md R213 and R214): an error saves nothing, writes nothing and moves no pc, so the
one shared operation of an exception is State.endRun, which records that the run has ended and with which error. -/

namespace Sys2Proof.Machine

/-! Memory. -/

/-- mem[a] (00_scope.md R13). -/
def Memory.byteAt (m : Memory) (a : Nat) : Byte :=
  match m with
  | [] => 0#8
  | c :: rest => if c.1 = a then c.2 else Memory.byteAt rest a

/-- The list without the entry of an address. -/
def Memory.without (m : Memory) (a : Nat) : Memory := m.filter (fun c => c.1 != a)

/-- The list with an entry put at its place. -/
def Memory.listed (m : Memory) (a : Nat) (v : Byte) : Memory :=
  match m with
  | [] => [(a, v)]
  | c :: rest => if a < c.1 then (a, v) :: c :: rest else c :: Memory.listed rest a v

/-- mem[a] <- v (00_scope.md R13). A byte of 0x00 is what an unlisted address reads as, so it is not listed. -/
def Memory.setByte (m : Memory) (a : Nat) (v : Byte) : Memory :=
  if v = 0#8 then m.without a else (m.without a).listed a v

/-- MemRead(a, n) (20_memory.md R53): the byte at the lowest address is the least significant. -/
def Memory.read (m : Memory) (a : Nat) : (n : Nat) → BitVec (8 * n)
  | 0 => 0#0
  | n + 1 => (Memory.read m (a + 1) n).setWidth (8 * (n + 1)) <<< 8 ||| (m.byteAt a).setWidth (8 * (n + 1))

/-- MemWrite(a, n, v) (R54): bits 7:0 go to the lowest address. -/
def Memory.write (m : Memory) (a : Nat) : (n : Nat) → BitVec (8 * n) → Memory
  | 0, _ => m
  | n + 1, v => Memory.write (m.setByte a (v.extractLsb' 0 8)) (a + 1) n (v.extractLsb' 8 (8 * n))

/-- An access of n bytes at an address is in bounds, computed over natural numbers (R55). No alignment is asked (R57). -/
abbrev State.inBounds (s : State) (a : Word) (n : Nat) : Prop := a.toNat + n ≤ s.memLen

/-- A read of n bytes, all of it or OutOfBounds (R55, R56). -/
def readMem (n : Nat) (a : Word) (s : State) : Result ReturnedError (BitVec (8 * n)) :=
  if s.inBounds a n then .ok (s.mem.read a.toNat n) else .err .outOfBounds

/-- A write of n bytes, all of it or OutOfBounds and no byte (R55, R56). -/
def writeMem (n : Nat) (a : Word) (v : BitVec (8 * n)) (s : State) : Result ReturnedError State :=
  if s.inBounds a n then .ok { s with mem := s.mem.write a.toNat n v } else .err .outOfBounds

/-- read_u8(addr) (43_memory_ops.md R171). -/
def readU8 (a : Word) (s : State) : Result ReturnedError Byte := readMem 1 a s
/-- read_u16(addr) (R172). -/
def readU16 (a : Word) (s : State) : Result ReturnedError Half := readMem 2 a s
/-- read_u32(addr) (R173). -/
def readU32 (a : Word) (s : State) : Result ReturnedError Word := readMem 4 a s
/-- write_u8(addr, v) (R174). -/
def writeU8 (a : Word) (v : Byte) (s : State) : Result ReturnedError State := writeMem 1 a v s
/-- write_u16(addr, v) (R175). -/
def writeU16 (a : Word) (v : Half) (s : State) : Result ReturnedError State := writeMem 2 a v s
/-- write_u32(addr, v) (R176). -/
def writeU32 (a : Word) (v : Word) (s : State) : Result ReturnedError State := writeMem 4 a v s

/-! The register file. -/

/-- read(n) (42_register_file.md R160), its checks in the order of 60_exceptions.md R210. -/
def readReg (n : RegIndex) (s : State) : Result Fault Word :=
  if h : n.toNat < 32 then
    if n = 0#8 then .ok 0#32
    else if s.cfg.regInit = .unwritten ∧ s.written[n.toNat] = false then .err .unwrittenRead
    else .ok s.x[n.toNat]
  else .err .regIndexOutOfRange

/-- write(n, val) (R161): index 0 is accepted and has no effect. -/
def writeReg (n : RegIndex) (v : Word) (s : State) : Result Fault State :=
  if h : n.toNat < 32 then
    if n = 0#8 then .ok s
    else .ok { s with x := s.x.set n.toNat v, written := s.written.set n.toNat true }
  else .err .regIndexOutOfRange

/-- pc may be read: REG_INIT gives it a value, or it has been written (R162). -/
abbrev State.pcReadable (s : State) : Prop := s.cfg.regInit = .zero ∨ s.writtenPc = true

/-- pc read (R162). -/
def readPc (s : State) : Result Fault Word := if s.pcReadable then .ok s.pc else .err .unwrittenRead

/-- pc write (R163): any value, no alignment or range check. -/
def writePc (v : Word) (s : State) : State := { s with pc := v, writtenPc := true }

/-- pc_increment() (R164), the unwritten check before the overflow check (60_exceptions.md R210). -/
def pcIncrement (s : State) : Result Fault State :=
  if ¬ s.pcReadable then .err .unwrittenRead
  else if s.pc.toNat + 4 < 2 ^ 32 then .ok { s with pc := s.pc + 4#32 }
  else
    match s.cfg.pcOverflow with
    | .wrap => .ok { s with pc := BitVec.ofNat 32 ((s.pc.toNat + 4) % 2 ^ 32) }
    | .fault => .err .pcOverflow

/-- pc can be advanced: it may be read, and the sum fits or wraps (42_register_file.md R164). -/
abbrev State.pcAdvances (s : State) : Prop :=
  s.pcReadable ∧ (s.pc.toNat + 4 < 2 ^ 32 ∨ s.cfg.pcOverflow = .wrap)

/-! Creation. -/

/-- The parameters at the spec's own defaults (00_scope.md R8). State.reset takes others: see resetConfig. -/
def defaultConfig : Config := { fmtTable := yarvisObserved, pcOverflow := .fault, regInit := .unwritten }

/-- A new machine instance (43_memory_ops.md R170, 70_reset_and_hazards.md R230 and R233): a table or a length the spec
refuses makes none (60_exceptions.md R207). -/
def create (cfg : Config) (length : Nat) : Host.Outcome State Fault Refusal :=
  if ¬ cfg.fmtTable.wf then .refused .malformedTable
  else if ¬ LengthOk length then .refused .memoryTooLong
  else .next (State.atCreation cfg length)

/-! How an operation ends. -/

/-- The code of a returned error (60_exceptions.md R200). -/
def ReturnedError.code : ReturnedError → Nat
  | .decode .unsupportedEncoding => 1
  | .decode .unknownOpcode => 2
  | .outOfBounds => 3

/-- The code of a fault (60_exceptions.md R200). -/
def Fault.code : Fault → Nat
  | .regIndexOutOfRange => 4
  | .unwrittenRead => 5
  | .pcOverflow => 6

/-- The reference loop's run ends with a returned error (70_reset_and_hazards.md R239). The error is a value the step
produces and no fault (60_exceptions.md R205): nothing is saved, no control is transferred (R213), and the end state is the
state the step began in, together with the error, which the caller is handed. -/
def State.endRun (s : State) (e : ReturnedError) : State := { s with ended := some e, replies := .err e :: s.replies }

/-- A value handed to the caller. -/
def State.reply (s : State) (r : Reply) : State := { s with replies := r :: s.replies }

/-- One pass of the reference loop after decode (70_reset_and_hazards.md R234): the Instruction is handed to the external
executor, whose part is out of scope (00_scope.md R5 and R6), and pc_increment advances pc. DESIGN CHOICE (log entry 23):
where pc_increment faults no reply is recorded, since the fault is all the step answers; the spec does not say whether the
Instruction of such a pass counts as handed over. -/
def handOver (i : Instruction) (s : State) : Host.Outcome State Fault Refusal :=
  match pcIncrement s with
  | .ok t => .next (t.reply (.instruction i))
  | .err f => .fault f

end Sys2Proof.Machine
end

