-- ==== Sys2Proof/Machine/Operands.lean ====
section
/-! DEFINITION. The operand forms of a decoded instruction: a register field names a general register (30_encoding.md
R82), and an immediate or function field is its raw bits (R81, R83). Decoding reads no register (R82). -/

namespace Sys2Proof.Machine

/-- The register file index of a 5-bit register field (30_encoding.md R82). -/
def regIndexOf (r : RegField) : RegIndex := r.setWidth 8

/-- The value a register field names, through the register file's own read (30_encoding.md R82, 42_register_file.md
R160). The external executor's inputs are the Instruction, the register file and the memory (00_scope.md R6). -/
def readRegField (r : RegField) (s : State) : Result Fault Word := readReg (regIndexOf r) s

/-- A write of the register a field names (00_scope.md R6, 42_register_file.md R161). -/
def writeRegField (r : RegField) (v : Word) (s : State) : Result Fault State := writeReg (regIndexOf r) v s

/-- The Instruction of an instruction by name: its word in its row's format (41_decoder.md R143 to R152). -/
def instructionOf (i : Instr) : Instruction := Instruction.ofWord (encode i) i.format

end Sys2Proof.Machine
end

