-- ==== Sys2Proof/Machine/Arith.lean ====
section
/-! DEFINITION. The meanings of OP-IMM, OP, LUI and AUIPC (41_decoder.md R144, R145, R147, R148). A table entry's rule
gives the Instruction decode returns and specifies no register write, no memory access and no change of pc; what the
instruction then does is the external executor's, out of scope (00_scope.md R5, 41_decoder.md section 4). The effect is
one pass of the reference loop, which hands the Instruction over and advances pc (70_reset_and_hazards.md R234). -/

namespace Sys2Proof.Machine

/-- OP-IMM, format I (41_decoder.md R144). -/
def execOpImm (rd rs1 : RegField) (imm : BitVec 12) (funct3 : BitVec 3) (s : State) : Host.Outcome State Fault Refusal :=
  handOver (instructionOf (.opImm rd rs1 imm funct3)) s

/-- OP, format R (41_decoder.md R147). -/
def execOp (rd rs1 rs2 : RegField) (funct10 : BitVec 10) (s : State) : Host.Outcome State Fault Refusal :=
  handOver (instructionOf (.op rd rs1 rs2 funct10)) s

/-- LUI, format L (41_decoder.md R148). -/
def execLui (rd : RegField) (imm : BitVec 20) (s : State) : Host.Outcome State Fault Refusal :=
  handOver (instructionOf (.lui rd imm)) s

/-- AUIPC, format L (41_decoder.md R145). -/
def execAuipc (rd : RegField) (imm : BitVec 20) (s : State) : Host.Outcome State Fault Refusal :=
  handOver (instructionOf (.auipc rd imm)) s

end Sys2Proof.Machine
end

