-- ==== Sys2Proof/Machine/Control.lean ====
section
/-! DEFINITION. The meanings of BRANCH, JALR and JAL (41_decoder.md R149 to R151). A table entry's rule gives the
Instruction decode returns and specifies no register write, no memory access and no change of pc; what the instruction
then does is the external executor's, out of scope (00_scope.md R5, 41_decoder.md section 4). The effect is one pass of
the reference loop, which hands the Instruction over and advances pc (70_reset_and_hazards.md R234). -/

namespace Sys2Proof.Machine

/-- BRANCH, format B (41_decoder.md R149). -/
def execBranch (rs1 rs2 : RegField) (imm : BitVec 12) (funct3 : BitVec 3) (s : State) : Host.Outcome State Fault Refusal :=
  handOver (instructionOf (.branch rs1 rs2 imm funct3)) s

/-- JALR, format I (41_decoder.md R150). -/
def execJalr (rd rs1 : RegField) (imm : BitVec 12) (funct3 : BitVec 3) (s : State) : Host.Outcome State Fault Refusal :=
  handOver (instructionOf (.jalr rd rs1 imm funct3)) s

/-- JAL, format J (41_decoder.md R151). Format J has no register field, so there is no link register. -/
def execJal (offset : BitVec 25) (s : State) : Host.Outcome State Fault Refusal :=
  handOver (instructionOf (.jal offset)) s

end Sys2Proof.Machine
end

