-- ==== Sys2Proof/Machine/LoadStore.lean ====
section
/-! DEFINITION. The meanings of LOAD and STORE (41_decoder.md R143, R146). A table entry's rule gives the Instruction
decode returns and specifies no register write, no memory access and no change of pc; what the instruction then does is
the external executor's, out of scope (00_scope.md R5, 41_decoder.md section 4). The effect is one pass of the reference
loop, which hands the Instruction over and advances pc (70_reset_and_hazards.md R234). -/

namespace Sys2Proof.Machine

/-- LOAD, format I (41_decoder.md R143). No funct3 is given a width (90_conflicts.md C3). -/
def execLoad (rd rs1 : RegField) (imm : BitVec 12) (funct3 : BitVec 3) (s : State) : Host.Outcome State Fault Refusal :=
  handOver (instructionOf (.load rd rs1 imm funct3)) s

/-- STORE, format B (41_decoder.md R146). -/
def execStore (rs1 rs2 : RegField) (imm : BitVec 12) (funct3 : BitVec 3) (s : State) : Host.Outcome State Fault Refusal :=
  handOver (instructionOf (.store rs1 rs2 imm funct3)) s

end Sys2Proof.Machine
end

