-- ==== Sys2Proof/Machine/System.lean ====
section
/-! DEFINITION. The meaning of SYSTEM (41_decoder.md R152). A table entry's rule gives the Instruction decode returns
and specifies no register write, no memory access and no change of pc; what the instruction then does is the external
executor's, out of scope (00_scope.md R5, 41_decoder.md section 4). The effect is one pass of the reference loop, which
hands the Instruction over and advances pc (70_reset_and_hazards.md R234). -/

namespace Sys2Proof.Machine

/-- SYSTEM, format I (41_decoder.md R152). The block tells no SYSTEM instruction from another. -/
def execSystem (rd rs1 : RegField) (imm : BitVec 12) (funct3 : BitVec 3) (s : State) : Host.Outcome State Fault Refusal :=
  handOver (instructionOf (.system rd rs1 imm funct3)) s

end Sys2Proof.Machine
end

