-- ==== Sys2Proof/Machine/Dispatch.lean ====
section
/-! DEFINITION. One arm per constructor of Instr. -/

namespace Sys2Proof.Machine

def exec (i : Instr) (s : State) : Host.Outcome State Fault Refusal :=
  match i with
  | .load rd rs1 imm funct3 => Sys2Proof.Machine.execLoad rd rs1 imm funct3 s
  | .opImm rd rs1 imm funct3 => Sys2Proof.Machine.execOpImm rd rs1 imm funct3 s
  | .auipc rd imm => Sys2Proof.Machine.execAuipc rd imm s
  | .store rs1 rs2 imm funct3 => Sys2Proof.Machine.execStore rs1 rs2 imm funct3 s
  | .op rd rs1 rs2 funct10 => Sys2Proof.Machine.execOp rd rs1 rs2 funct10 s
  | .lui rd imm => Sys2Proof.Machine.execLui rd imm s
  | .branch rs1 rs2 imm funct3 => Sys2Proof.Machine.execBranch rs1 rs2 imm funct3 s
  | .jalr rd rs1 imm funct3 => Sys2Proof.Machine.execJalr rd rs1 imm funct3 s
  | .jal offset => Sys2Proof.Machine.execJal offset s
  | .system rd rs1 imm funct3 => Sys2Proof.Machine.execSystem rd rs1 imm funct3 s

end Sys2Proof.Machine
end

