-- ==== Sys2Proof/Machine/Flags.lean ====
section
/-! DEFINITION. The status word fsr. No instruction and no operation of this block computes or writes a flag (each rule
of 41_decoder.md, 42_register_file.md and 43_memory_ops.md: flags written, none), fsr has no field, and an access to it
through this block is refused (42_register_file.md R165, 10_state.md R25). -/

namespace Sys2Proof.Machine

/-- A read of fsr through the block (42_register_file.md R165). -/
def readFsr (_s : State) : Result Refusal Word := .err .fsrAccess

/-- A write of fsr through the block (R165). -/
def writeFsr (_v : Word) (_s : State) : Result Refusal State := .err .fsrAccess

end Sys2Proof.Machine
end

