-- ==== Sys2Proof/Machine/Interface.lean ====
section
/-! DEFINITION. The block's interface: one transaction of 10_state.md R33, performed whole or not at all
(70_reset_and_hazards.md R236). A returned error is a reply and changes no state (60_exceptions.md R205); a fault stops
the machine (R206); a request without meaning is refused (R207). -/

namespace Sys2Proof.Machine

/-- What a transaction answers: the state after it, with its reply. -/
abbrev Answer := Host.Outcome (State × Reply) Fault Refusal

/-- A value or a returned error, in the state as it was (R205). -/
def answerValue {α : Type} (s : State) (f : α → Reply) (r : Result ReturnedError α) : Answer :=
  match r with
  | .ok v => .next (s, f v)
  | .err e => .next (s, .err e)

/-- A write that ended, or a returned error in the state as it was (R205). -/
def answerWrite (s : State) (r : Result ReturnedError State) : Answer :=
  match r with
  | .ok t => .next (t, .done)
  | .err e => .next (s, .err e)

/-- A register value, or a fault (R206). -/
def answerRead (s : State) (r : Result Fault Word) : Answer :=
  match r with
  | .ok v => .next (s, .word v)
  | .err f => .fault f

/-- A register write that ended, or a fault (R206). -/
def answerUpdate (r : Result Fault State) : Answer :=
  match r with
  | .ok t => .next (t, .done)
  | .err f => .fault f

/-- A field, or a refusal where the format lacks it (41_decoder.md R142, 60_exceptions.md R207). -/
def answerField (s : State) (v : Option FieldValue) : Answer :=
  match v with
  | some v => .next (s, .field v)
  | none => .refused .fieldNotOfFormat

/-- decode as a transaction (41_decoder.md R130): an Instruction or a returned error. -/
def answerDecode (w : Word) (s : State) : Answer :=
  match decodeWord s.cfg.fmtTable w with
  | .ok i => .next (s, .instruction i)
  | .err e => .next (s, .err (.decode e))

/-- A read of fsr as a transaction (42_register_file.md R165). -/
def answerFsrRead (s : State) : Answer :=
  match readFsr s with
  | .ok v => .next (s, .word v)
  | .err r => .refused r

/-- A write of fsr as a transaction (42_register_file.md R165). -/
def answerFsrWrite (v : Word) (s : State) : Answer :=
  match writeFsr v s with
  | .ok t => .next (t, .done)
  | .err r => .refused r

/-- One transaction. -/
def perform (t : Transaction) (s : State) : Answer :=
  match t with
  | .decode w => answerDecode w s
  | .instrOpcode i => .next (s, .opcode i.opcode)
  | .instrFormat i => .next (s, .format i.format)
  | .instrField i f => answerField s (i.field f)
  | .extractField k f w => answerField s (extract k f w)
  | .extractOpcode w => .next (s, .opcode (opcodeOf w))
  | .regRead n => answerRead s (readReg n s)
  | .regWrite n v => answerUpdate (writeReg n v s)
  | .pcRead => answerRead s (readPc s)
  | .pcWrite v => .next (writePc v s, .done)
  | .pcIncrement => answerUpdate (pcIncrement s)
  | .fsrRead => answerFsrRead s
  | .fsrWrite v => answerFsrWrite v s
  | .readU8 a => answerValue s .byte (readU8 a s)
  | .readU16 a => answerValue s .half (readU16 a s)
  | .readU32 a => answerValue s .word (readU32 a s)
  | .writeU8 a v => answerWrite s (writeU8 a v s)
  | .writeU16 a v => answerWrite s (writeU16 a v s)
  | .writeU32 a v => answerWrite s (writeU32 a v s)

/-- The caller's next transaction is performed and its reply handed over; after a fault or a refusal nothing later in
the script is performed (60_exceptions.md R206 and R207). DESIGN CHOICE (log entry 9): a caller that goes on after a run
has ended opens another run, so the mark of the ended one is cleared. -/
def issue (t : Transaction) (rest : List Transaction) (s : State) : Host.Outcome State Fault Refusal :=
  match perform t { s with script := rest, ended := none } with
  | .next (u, r) => .next (u.reply r)
  | .fault f => .fault f
  | .refused r => .refused r

end Sys2Proof.Machine
end

