-- ==== Sys2Proof/Machine/Loop.lean ====
section
/-! DEFINITION. The reference loop of 70_reset_and_hazards.md R234, the spec's own: fetch, decode, hand the Instruction
to the external executor, advance pc. -/

namespace Sys2Proof.Machine

/-- The word at pc: read_u32(pc), little-endian, unaligned allowed, bounds-checked (20_memory.md R65, decision D16).
An unwritten pc faults; what read_u32 answers, the word or its returned error, is the fetch's own answer. -/
def fetch (s : State) : Result Fault (Result ReturnedError Word) :=
  match readPc s with
  | .err f => .err f
  | .ok a => .ok (readU32 a s)

/-- A decoded Instruction of no row of the opcode table, which only a caller's own format table can give (41_decoder.md
R135): the loop is the same for every table (R138), so it is handed over and pc advances. -/
def execUnlisted (i : Instruction) (s : State) : Host.Outcome State Fault Refusal := handOver i s

/-- A decoded Instruction runs as the instruction by name it stands for. -/
def execInstruction (i : Instruction) (s : State) : Host.Outcome State Fault Refusal :=
  match i.toInstr with
  | some j => exec j s
  | none => execUnlisted i s

/-- One pass of the reference loop. A returned error ends the run (70_reset_and_hazards.md R239) and is no fault
(60_exceptions.md R205). -/
def loopOnce (s : State) : Host.Outcome State Fault Refusal :=
  match fetch s with
  | .err f => .fault f
  | .ok (.err e) => .next (s.endRun e)
  | .ok (.ok w) =>
    match decodeWord s.cfg.fmtTable w with
    | .err e => .next (s.endRun (.decode e))
    | .ok i => execInstruction i s

/-- Where a word placed for the next fetch lies: at pc where four bytes at pc fit the address space, at 0 where no
memory can hold them. -/
def fetchPlace (s : State) : Nat := if s.pc.toNat + 4 ≤ 2 ^ 32 then s.pc.toNat else 0

end Sys2Proof.Machine
end

