-- ==== Sys2Proof/Machine/Step.lean ====
section
/-! DEFINITION. One step: the caller's next transaction, or, where the caller has none waiting, one pass of the reference
loop (70_reset_and_hazards.md R234 to R236). A run that has ended stays in its end state (R239). -/

namespace Sys2Proof.Machine

def step (s : State) : Host.Outcome State Fault Refusal :=
  match s.script with
  | t :: rest => issue t rest s
  | [] =>
    match s.ended with
    | some _ => .next s
    | none => loopOnce s

/-- s with the instruction of the table's numbering stored where step fetches next: no transaction waits, no run
has ended, pc may be read, the memory is long enough, and the four bytes lie at pc. -/
def State.withFetchWord (s : State) (nbits w : Nat) : State :=
  { s with
    script := []
    ended := none
    pc := BitVec.ofNat 32 (fetchPlace s)
    writtenPc := s.writtenPc || decide (s.cfg.regInit = .unwritten)
    memLen := max s.memLen (fetchPlace s + 4)
    mem := s.mem.write (fetchPlace s) 4 (tableWord nbits w) }

end Sys2Proof.Machine
end

