-- ==== Sys2Proof/Machine/Run.lean ====
section
/-! DEFINITION. A run of several steps, with the state it reaches. A fault or a refusal stops it in the state at that
moment, and a fault is never cleared (60_exceptions.md R206 and R207). A returned error of the reference loop is no such
stop: it is in the state reached, which stays as it is (70_reset_and_hazards.md R239). -/

namespace Sys2Proof.Machine

/-- What stopped a run. -/
inductive Stop where
  | fault (f : Fault)
  | refused (r : Refusal)
deriving DecidableEq, Repr

/-- The state a run has reached, with what stopped it: none while it can go on. A run with a fault is 60_exceptions.md
R206's faulted state. -/
structure RunState where
  state : State
  stop : Option Stop
deriving DecidableEq, Repr

/-- One more step of a run; a run that has stopped stays as it is. -/
def RunState.advance (r : RunState) : RunState :=
  match r.stop with
  | some _ => r
  | none =>
    match step r.state with
    | .next s => { state := s, stop := none }
    | .fault f => { state := r.state, stop := some (.fault f) }
    | .refused e => { state := r.state, stop := some (.refused e) }

/-- k steps of a run. -/
def RunState.go (r : RunState) : Nat → RunState
  | 0 => r
  | k + 1 => RunState.go r.advance k

end Sys2Proof.Machine
end

