-- ==== Sys2Proof/Safety.lean ====
section
/-! DEFINITION. What every state of a machine instance satisfies, what counts as a safe run, and the terms the statements
use: a pass of the reference loop as transactions, the byte and the register value a transaction stores, and the completion
of an instruction. -/

namespace Sys2Proof.Machine

/-- The invariant of a machine instance. -/
structure State.Inv (s : State) : Prop where
  /-- The table is one a machine may have (41_decoder.md R135). -/
  table : s.cfg.fmtTable.wf
  /-- MEM_LEN is at most 2^32 (20_memory.md R51). -/
  length : LengthOk s.memLen
  /-- Memory has its canonical form. -/
  canonical : s.mem.wf
  /-- No byte lies outside mem[0..MEM_LEN) (10_state.md R27). -/
  inside : ∀ c ∈ s.mem, c.1 < s.memLen
  /-- The cell x[0] never holds a value other than 0 (10_state.md R21). -/
  zeroCell : s.x[0] = 0#32
  /-- x[0] has no written flag (10_state.md R37). -/
  zeroFlag : s.written[0] = false
  /-- A register nothing has written holds its value at creation (10_state.md R36 and R37). -/
  unwrittenCells : ∀ (n : Nat) (h : n < 32), s.written[n] = false → s.x[n] = 0#32
  /-- Under REG_INIT = unwritten a pc nothing has written holds its value at creation. -/
  unwrittenPc : s.cfg.regInit = .unwritten → s.writtenPc = false → s.pc = 0#32

/-- A run is safe for k steps when no fault of 60_exceptions.md R206 and no refusal of R207 stops it. A returned error
may end the reference loop's run (70_reset_and_hazards.md R239): the run then stays in its end state. -/
def SafeRun (k : Nat) (s : State) : Prop := (RunState.go { state := s, stop := none } k).stop = none

/-- One pass of the reference loop told in the block's own transactions (70_reset_and_hazards.md R234): pc read,
read_u32(pc), decode, pc_increment, each in the state the one before it left. It ends at the first error: a returned error
ends the run with it (R239). -/
inductive LoopPass (s : State) : Host.Outcome State Fault Refusal → Prop where
  | pcNotRead (f : Fault) : perform .pcRead s = .fault f → LoopPass s (.fault f)
  | notFetched (a : Word) (u v : State) (e : ReturnedError) :
      perform .pcRead s = .next (u, .word a) → perform (.readU32 a) u = .next (v, .err e) →
      LoopPass s (.next { v with ended := some e, replies := .err e :: v.replies })
  | notDecoded (a w : Word) (u v x : State) (e : ReturnedError) :
      perform .pcRead s = .next (u, .word a) → perform (.readU32 a) u = .next (v, .word w) →
      perform (.decode w) v = .next (x, .err e) →
      LoopPass s (.next { x with ended := some e, replies := .err e :: x.replies })
  | notAdvanced (a w : Word) (u v x : State) (i : Instruction) (f : Fault) :
      perform .pcRead s = .next (u, .word a) → perform (.readU32 a) u = .next (v, .word w) →
      perform (.decode w) v = .next (x, .instruction i) → perform .pcIncrement x = .fault f → LoopPass s (.fault f)
  | advanced (a w : Word) (u v x y : State) (i : Instruction) :
      perform .pcRead s = .next (u, .word a) → perform (.readU32 a) u = .next (v, .word w) →
      perform (.decode w) v = .next (x, .instruction i) → perform .pcIncrement x = .next (y, .done) →
      LoopPass s (.next { y with replies := .instruction i :: y.replies })

/-- A run of a caller's script from a state, one step for each of its transactions. -/
def runScript (ts : List Transaction) (s : State) : RunState :=
  RunState.go { state := { s with script := ts }, stop := none } ts.length

/-- The byte a transaction stores at an address of a memory of a length, none where it stores none there: an access that
is not in bounds stores nothing, not even the bytes of it that lie in bounds (20_memory.md R54 to R56, decision D14; log
entry 17). -/
def byteStored (length : Nat) (t : Transaction) (a : Nat) : Option Byte :=
  match t with
  | .writeU8 b v => if b.toNat + 1 ≤ length ∧ a = b.toNat then some v else none
  | .writeU16 b v =>
    if b.toNat + 2 ≤ length ∧ b.toNat ≤ a ∧ a < b.toNat + 2 then some (v.extractLsb' (8 * (a - b.toNat)) 8) else none
  | .writeU32 b v =>
    if b.toNat + 4 ≤ length ∧ b.toNat ≤ a ∧ a < b.toNat + 4 then some (v.extractLsb' (8 * (a - b.toNat)) 8) else none
  | _ => none

/-- The last byte a script stores at an address. -/
def lastByteStored (length : Nat) (ts : List Transaction) (a : Nat) : Option Byte :=
  match ts with
  | [] => none
  | t :: rest => (lastByteStored length rest a).or (byteStored length t a)

/-- The value a transaction stores in a register, none where it stores none there (42_register_file.md R161). -/
def regStored (t : Transaction) (n : RegIndex) : Option Word :=
  match t with
  | .regWrite m v => if m = n then some v else none
  | _ => none

/-- The last value a script stores in a register. -/
def lastRegStored (ts : List Transaction) (n : RegIndex) : Option Word :=
  match ts with
  | [] => none
  | t :: rest => (lastRegStored rest n).or (regStored t n)

/-- An instruction completes: pc advances by 4, nothing else of the block changes, and the external executor is handed the
Instruction of a word, an opcode and a format. -/
def CompletesAs (i : Instr) (s : State) (word : Nat) (o : Opcode) (k : FormatKind) : Prop :=
  ∃ ins : Instruction, ins.bits.toNat = word ∧ ins.opcode = o ∧ ins.format = k ∧
    exec i s = .next { s with pc := s.pc + 4#32, replies := .instruction ins :: s.replies }

/-- The fields of each format (41_decoder.md R142). -/
def fieldsOf : FormatKind → List FieldName
  | .R => [.rd, .rs1, .rs2, .funct10]
  | .R4 => [.rd, .rs1, .rs2, .rs3, .funct5]
  | .I => [.rd, .rs1, .imm, .funct3]
  | .B => [.rs1, .rs2, .imm, .funct3]
  | .L => [.rd, .imm]
  | .J => [.offset]

/-- The operands of an instruction as the fields of its format, each with its width. -/
def operandsOf : Instr → List (FieldName × FieldValue)
  | .load rd rs1 imm funct3 => [(.rd, ⟨5, rd⟩), (.rs1, ⟨5, rs1⟩), (.imm, ⟨12, imm⟩), (.funct3, ⟨3, funct3⟩)]
  | .opImm rd rs1 imm funct3 => [(.rd, ⟨5, rd⟩), (.rs1, ⟨5, rs1⟩), (.imm, ⟨12, imm⟩), (.funct3, ⟨3, funct3⟩)]
  | .auipc rd imm => [(.rd, ⟨5, rd⟩), (.imm, ⟨20, imm⟩)]
  | .store rs1 rs2 imm funct3 => [(.rs1, ⟨5, rs1⟩), (.rs2, ⟨5, rs2⟩), (.imm, ⟨12, imm⟩), (.funct3, ⟨3, funct3⟩)]
  | .op rd rs1 rs2 funct10 => [(.rd, ⟨5, rd⟩), (.rs1, ⟨5, rs1⟩), (.rs2, ⟨5, rs2⟩), (.funct10, ⟨10, funct10⟩)]
  | .lui rd imm => [(.rd, ⟨5, rd⟩), (.imm, ⟨20, imm⟩)]
  | .branch rs1 rs2 imm funct3 => [(.rs1, ⟨5, rs1⟩), (.rs2, ⟨5, rs2⟩), (.imm, ⟨12, imm⟩), (.funct3, ⟨3, funct3⟩)]
  | .jalr rd rs1 imm funct3 => [(.rd, ⟨5, rd⟩), (.rs1, ⟨5, rs1⟩), (.imm, ⟨12, imm⟩), (.funct3, ⟨3, funct3⟩)]
  | .jal offset => [(.offset, ⟨25, offset⟩)]
  | .system rd rs1 imm funct3 => [(.rd, ⟨5, rd⟩), (.rs1, ⟨5, rs1⟩), (.imm, ⟨12, imm⟩), (.funct3, ⟨3, funct3⟩)]

end Sys2Proof.Machine
end

