-- ==== Sys2Proof/Certificates/Slice0/Obligations.lean ====
section
/-! DEFINITION. The statements for the provers. -/

open Sys2Proof Sys2Proof.Machine

/-! Field extraction. -/

/-- The fields of format R are the word's bits 31:27, 26:22, 21:17 and 16:7 (40_formats.md R101 to R104). -/
def Obligations.RFieldsAreTheirBits : Prop :=
  ∀ w : Word,
    (Formats.R.rd w).toNat = w.toNat / 2 ^ 27 % 2 ^ 5 ∧
    (Formats.R.rs1 w).toNat = w.toNat / 2 ^ 22 % 2 ^ 5 ∧
    (Formats.R.rs2 w).toNat = w.toNat / 2 ^ 17 % 2 ^ 5 ∧
    (Formats.R.funct10 w).toNat = w.toNat / 2 ^ 7 % 2 ^ 10

/-- The fields of format R4 are the word's bits 31:27, 26:22, 21:17, 16:12 and 11:7 (R105 to R109). -/
def Obligations.R4FieldsAreTheirBits : Prop :=
  ∀ w : Word,
    (Formats.R4.rd w).toNat = w.toNat / 2 ^ 27 % 2 ^ 5 ∧
    (Formats.R4.rs1 w).toNat = w.toNat / 2 ^ 22 % 2 ^ 5 ∧
    (Formats.R4.rs2 w).toNat = w.toNat / 2 ^ 17 % 2 ^ 5 ∧
    (Formats.R4.rs3 w).toNat = w.toNat / 2 ^ 12 % 2 ^ 5 ∧
    (Formats.R4.funct5 w).toNat = w.toNat / 2 ^ 7 % 2 ^ 5

/-- The fields of format I are the word's bits 31:27, 26:22, 21:10 and 9:7, the immediate unsigned (R110 to R113). -/
def Obligations.IFieldsAreTheirBits : Prop :=
  ∀ w : Word,
    (Formats.I.rd w).toNat = w.toNat / 2 ^ 27 % 2 ^ 5 ∧
    (Formats.I.rs1 w).toNat = w.toNat / 2 ^ 22 % 2 ^ 5 ∧
    (Formats.I.imm w).toNat = w.toNat / 2 ^ 10 % 2 ^ 12 ∧
    (Formats.I.funct3 w).toNat = w.toNat / 2 ^ 7 % 2 ^ 3

/-- The fields of format B: rs1 is bits 26:22, rs2 bits 21:17, funct3 bits 9:7, and the immediate is bits 31:27 above
bits 16:10 (R114 to R117). -/
def Obligations.BFieldsAreTheirBits : Prop :=
  ∀ w : Word,
    (Formats.B.rs1 w).toNat = w.toNat / 2 ^ 22 % 2 ^ 5 ∧
    (Formats.B.rs2 w).toNat = w.toNat / 2 ^ 17 % 2 ^ 5 ∧
    (Formats.B.imm w).toNat = w.toNat / 2 ^ 27 % 2 ^ 5 * 2 ^ 7 + w.toNat / 2 ^ 10 % 2 ^ 7 ∧
    (Formats.B.funct3 w).toNat = w.toNat / 2 ^ 7 % 2 ^ 3

/-- The fields of formats L and J: rd is bits 31:27 and the immediate bits 26:7; the offset is bits 31:7 (R118 to R120).
-/
def Obligations.LAndJFieldsAreTheirBits : Prop :=
  ∀ w : Word,
    (Formats.L.rd w).toNat = w.toNat / 2 ^ 27 % 2 ^ 5 ∧
    (Formats.L.imm w).toNat = w.toNat / 2 ^ 7 % 2 ^ 20 ∧
    (Formats.J.offset w).toNat = w.toNat / 2 ^ 7 % 2 ^ 25

/-- An extraction function answers for every word, whatever the state, and changes nothing (R100), and what the
transaction of a format and field answers is that format's own function of the word; the opcode's is the word's low 7
bits, whichever format the word is read as (R121). -/
def Obligations.ExtractionIsTotalAndPure : Prop :=
  (∀ (k : FormatKind) (f : FieldName) (w : Word), f ∈ fieldsOf k →
    ∃ v, ∀ s : State, perform (.extractField k f w) s = .next (s, .field v) ∧ extract k f w = some v) ∧
  (∀ w : Word,
    (fieldsOf .R).map (extract .R · w) =
      [some ⟨5, Formats.R.rd w⟩, some ⟨5, Formats.R.rs1 w⟩, some ⟨5, Formats.R.rs2 w⟩, some ⟨10, Formats.R.funct10 w⟩] ∧
    (fieldsOf .R4).map (extract .R4 · w) =
      [some ⟨5, Formats.R4.rd w⟩, some ⟨5, Formats.R4.rs1 w⟩, some ⟨5, Formats.R4.rs2 w⟩, some ⟨5, Formats.R4.rs3 w⟩,
        some ⟨5, Formats.R4.funct5 w⟩] ∧
    (fieldsOf .I).map (extract .I · w) =
      [some ⟨5, Formats.I.rd w⟩, some ⟨5, Formats.I.rs1 w⟩, some ⟨12, Formats.I.imm w⟩, some ⟨3, Formats.I.funct3 w⟩] ∧
    (fieldsOf .B).map (extract .B · w) =
      [some ⟨5, Formats.B.rs1 w⟩, some ⟨5, Formats.B.rs2 w⟩, some ⟨12, Formats.B.imm w⟩, some ⟨3, Formats.B.funct3 w⟩] ∧
    (fieldsOf .L).map (extract .L · w) = [some ⟨5, Formats.L.rd w⟩, some ⟨20, Formats.L.imm w⟩] ∧
    (fieldsOf .J).map (extract .J · w) = [some ⟨25, Formats.J.offset w⟩]) ∧
  ∀ (w : Word) (s : State), ∃ o : Opcode, o.toNat = w.toNat % 128 ∧ perform (.extractOpcode w) s = .next (s, .opcode o)

/-- In each of the six formats the fields and the opcode give back every bit of the word (30_encoding.md R80, which the
spec derives). -/
def Obligations.FieldsCoverEveryBit : Prop :=
  ∀ w : Word,
    encodeR (Formats.R.rd w) (Formats.R.rs1 w) (Formats.R.rs2 w) (Formats.R.funct10 w) (opcodeOf w) = w ∧
    encodeR4 (Formats.R4.rd w) (Formats.R4.rs1 w) (Formats.R4.rs2 w) (Formats.R4.rs3 w) (Formats.R4.funct5 w)
      (opcodeOf w) = w ∧
    encodeI (Formats.I.rd w) (Formats.I.rs1 w) (Formats.I.imm w) (Formats.I.funct3 w) (opcodeOf w) = w ∧
    encodeB (Formats.B.rs1 w) (Formats.B.rs2 w) (Formats.B.imm w) (Formats.B.funct3 w) (opcodeOf w) = w ∧
    encodeL (Formats.L.rd w) (Formats.L.imm w) (opcodeOf w) = w ∧
    encodeJ (Formats.J.offset w) (opcodeOf w) = w

/-- A field accessor of an Instruction answers its format's own extraction function on its bits for a field the format
has, format R4's among them, and is refused for one it lacks (41_decoder.md R142, decision D20). -/
def Obligations.AccessorsAnswerTheFormatsOwnFields : Prop :=
  ∀ (i : Instruction) (f : FieldName) (s : State),
    (f ∈ fieldsOf i.format →
      ∃ v, extract i.format f i.bits = some v ∧ perform (.instrField i f) s = .next (s, .field v)) ∧
    (f ∉ fieldsOf i.format → perform (.instrField i f) s = .refused .fieldNotOfFormat) ∧
    (i.format = .R4 →
      (fieldsOf .R4).map (fun g => perform (.instrField i g) s) =
        [.next (s, .field ⟨5, Formats.R4.rd i.bits⟩), .next (s, .field ⟨5, Formats.R4.rs1 i.bits⟩),
          .next (s, .field ⟨5, Formats.R4.rs2 i.bits⟩), .next (s, .field ⟨5, Formats.R4.rs3 i.bits⟩),
          .next (s, .field ⟨5, Formats.R4.funct5 i.bits⟩)])

/-! The decoder. -/

/-- A word whose low two bits are not 11 fails with UnsupportedEncoding, under every table, and no other word does
(41_decoder.md R131). -/
def Obligations.LowBitsNotElevenAreUnsupported : Prop :=
  ∀ (t : FmtTable) (w : Word), decodeWord t w = .err .unsupportedEncoding ↔ w.toNat % 4 ≠ 3

/-- A word with low bits 11 fails with UnknownOpcode exactly where the table has no entry at its opcode, and otherwise
takes the entry's format: no other bit of the word has a part in it (R132). -/
def Obligations.TheOpcodeAloneChoosesTheFormat : Prop :=
  ∀ (t : FmtTable) (w : Word), w.toNat % 4 = 3 →
    (decodeWord t w = .err .unknownOpcode ↔ t.formatOf (BitVec.ofNat 7 (w.toNat % 128)) = none) ∧
    ∀ k, t.formatOf (BitVec.ofNat 7 (w.toNat % 128)) = some k → ∃ i, decodeWord t w = .ok i ∧ i.format = k

/-- Once a word is accepted, every word with its opcode is accepted in the same format, whatever its fields, and the
Instruction keeps the word and its low 7 bits (R133). -/
def Obligations.AnyFieldValuesAreAccepted : Prop :=
  ∀ (t : FmtTable) (w w' : Word) (i : Instruction),
    decodeWord t w = .ok i → w'.toNat % 128 = w.toNat % 128 →
    ∃ j, decodeWord t w' = .ok j ∧ j.bits = w' ∧ j.opcode.toNat = w'.toNat % 128 ∧ j.format = i.format

/-- decode answers the same in any two states with the same table, and changes neither (R134). -/
def Obligations.DecodeReadsAndWritesNoState : Prop :=
  ∀ (w : Word) (s s' : State), s.cfg.fmtTable = s'.cfg.fmtTable →
    ∃ r, perform (.decode w) s = .next (s, r) ∧ perform (.decode w) s' = .next (s', r)

/-- Under the default table a word is accepted, in format I, exactly when its opcode is LOAD's (R136). -/
def Obligations.TheDefaultTableAcceptsOnlyLoad : Prop :=
  ∀ w : Word,
    (w.toNat % 128 = 0b0000011 →
      ∃ i, decodeWord defaultConfig.fmtTable w = .ok i ∧ i.bits = w ∧ i.opcode = 0b0000011#7 ∧ i.format = .I) ∧
    (w.toNat % 128 ≠ 0b0000011 → w.toNat % 4 = 3 → decodeWord defaultConfig.fmtTable w = .err .unknownOpcode) ∧
    defaultConfig.fmtTable = yarvisObserved ∧ yarvisObserved.length = 1

/-- Every word with LOAD's opcode decodes under both tables to an Instruction of format I with rd, rs1, imm and funct3
at their bits, whatever those are (R143). -/
def Obligations.LoadDecodesWithAnyFields : Prop :=
  ∀ w : Word, w.toNat % 128 = 0b0000011 → ∀ t ∈ [yarvisObserved, rv32iExtended],
    ∃ i, decodeWord t w = .ok i ∧ i.bits = w ∧ i.opcode = 0b0000011#7 ∧ i.format = .I ∧
      i.field .rd = some ⟨5, w.extractLsb' 27 5⟩ ∧ i.field .rs1 = some ⟨5, w.extractLsb' 22 5⟩ ∧
      i.field .imm = some ⟨12, w.extractLsb' 10 12⟩ ∧ i.field .funct3 = some ⟨3, w.extractLsb' 7 3⟩

/-- The outcome of every word under the spec's optional table, so that no word decodes to format R4. The table is the
spec's own choice (R137, decision D6). -/
def Obligations.TheExtendedTableOutcomes : Prop :=
  ∀ w : Word, w.toNat % 4 = 3 →
    decodeWord rv32iExtended w =
      match w.toNat % 128 with
      | 0x03 => .ok (Instruction.ofWord w .I)
      | 0x13 => .ok (Instruction.ofWord w .I)
      | 0x17 => .ok (Instruction.ofWord w .L)
      | 0x23 => .ok (Instruction.ofWord w .B)
      | 0x33 => .ok (Instruction.ofWord w .R)
      | 0x37 => .ok (Instruction.ofWord w .L)
      | 0x63 => .ok (Instruction.ofWord w .B)
      | 0x67 => .ok (Instruction.ofWord w .I)
      | 0x6F => .ok (Instruction.ofWord w .J)
      | 0x73 => .ok (Instruction.ofWord w .I)
      | _ => .err .unknownOpcode

/-! Decode and encode. -/

/-- Decoding the bytes of a well-formed instruction's word, whatever follows them, gives the instruction back, with
every operand, under every table that admits it. The rows but LOAD's are the spec's own choice (decision D6; log entry
2). -/
def Obligations.DecodingAnEncodedInstructionGivesItBack : Prop :=
  ∀ (t : FmtTable) (i : Instr) (rest : List Byte), i.wf t →
    decodeBytes t (bytesOfWord (encode i) ++ rest) = .ok (i, rest)

/-- Bytes that decode to an instruction are the bytes of its word, and the table admits it: each word has one meaning.
The rows but LOAD's are the spec's own choice (decision D6; log entry 2). -/
def Obligations.EncodingADecodedInstructionGivesItsBytes : Prop :=
  ∀ (t : FmtTable) (bs : List Byte) (i : Instr) (rest : List Byte), decodeBytes t bs = .ok (i, rest) →
    bs = bytesOfWord (encode i) ++ rest ∧ i.wf t

/-- The instruction by name agrees with the decoder's Instruction: its format, its opcode, and every field accessor.
The rows but LOAD's are the spec's own choice (decision D6; log entry 2). -/
def Obligations.OperandsAreTheDecodedFields : Prop :=
  ∀ (t : FmtTable) (w : Word) (i : Instr), decodeInstr t w = .ok i →
    ∃ ins, decodeWord t w = .ok ins ∧ ins.bits = w ∧ ins.format = i.format ∧ ins.opcode = i.opcode ∧
      (∀ p ∈ operandsOf i, ins.field p.1 = some p.2) ∧ (operandsOf i).map Prod.fst = fieldsOf i.format

/-- Under rv32i_extended, the spec's optional table and not its default, words of the spec's own examples decode to the
instructions they stand for (41_decoder.md R143 to R152, decision D6; log entry 2). Under the default table the first
alone decodes, to the same instruction, and each of the others is an unknown opcode (R136). -/
def Obligations.ExampleWordsDecode : Prop :=
  decodeTableWord 32 0xAAB3B983 = some (.load 21 10 0xCEE 3) ∧
  decodeTableWord 32 0xFFFFFF97 = some (.auipc 31 0xFFFFF) ∧
  decodeTableWord 32 0xAAB399B3 = some (.op 21 10 25 0x333) ∧
  decodeTableWord 32 0xAAB3B9E3 = some (.branch 10 25 0xAEE 3) ∧
  decodeTableWord 32 0xAAB3B9EF = some (.jal 0x1556773) ∧
  decodeTableWord 32 0x00000073 = some (.system 0 0 0 0) ∧
  decodeInstr yarvisObserved 0xAAB3B983#32 = .ok (.load 21 10 0xCEE 3) ∧
  decodeInstr yarvisObserved 0xFFFFFF97#32 = .err (.malformed .unknownOpcode) ∧
  decodeInstr yarvisObserved 0xAAB399B3#32 = .err (.malformed .unknownOpcode) ∧
  decodeInstr yarvisObserved 0xAAB3B9E3#32 = .err (.malformed .unknownOpcode) ∧
  decodeInstr yarvisObserved 0xAAB3B9EF#32 = .err (.malformed .unknownOpcode) ∧
  decodeInstr yarvisObserved 0x00000073#32 = .err (.malformed .unknownOpcode)

/-! Memory. -/

/-- The byte at the lowest address holds bits 7:0 of the value, the next byte bits 15:8, and so on, for every multi-byte
read and write (20_memory.md R52). -/
def Obligations.MultiByteAccessesAreLittleEndian : Prop :=
  ∀ (s t : State) (a v : Word) (h : Half) (k : Nat),
    (writeU32 a v s = .ok t → k < 4 → t.mem.byteAt (a.toNat + k) = v.extractLsb' (8 * k) 8) ∧
    (writeU16 a h s = .ok t → k < 2 → t.mem.byteAt (a.toNat + k) = h.extractLsb' (8 * k) 8) ∧
    (readU32 a s = .ok v → k < 4 → s.mem.byteAt (a.toNat + k) = v.extractLsb' (8 * k) 8) ∧
    (readU16 a s = .ok h → k < 2 → s.mem.byteAt (a.toNat + k) = h.extractLsb' (8 * k) 8)

/-- Every access whose bytes lie in memory ends, at any address, aligned or not. A read assembles its bytes and changes
nothing; a write stores its bytes, leaves every other byte, and changes nothing but memory (R57, with R53 and R54). -/
def Obligations.InBoundsAccessesNeedNoAlignment : Prop :=
  ∀ (s : State) (a : Word),
    (a.toNat + 1 ≤ s.memLen →
      perform (.readU8 a) s = .next (s, .byte (s.mem.byteAt a.toNat)) ∧
      ∀ v, ∃ t, perform (.writeU8 a v) s = .next (t, .done) ∧ t = { s with mem := t.mem } ∧
        ∀ b, t.mem.byteAt b = if b = a.toNat then v else s.mem.byteAt b) ∧
    (a.toNat + 2 ≤ s.memLen →
      (∃ v, perform (.readU16 a) s = .next (s, .half v) ∧
        v.toNat = (s.mem.byteAt a.toNat).toNat + (s.mem.byteAt (a.toNat + 1)).toNat * 2 ^ 8) ∧
      ∀ v, ∃ t, perform (.writeU16 a v) s = .next (t, .done) ∧ t = { s with mem := t.mem } ∧
        ∀ b, t.mem.byteAt b =
          if a.toNat ≤ b ∧ b < a.toNat + 2 then v.extractLsb' (8 * (b - a.toNat)) 8 else s.mem.byteAt b) ∧
    (a.toNat + 4 ≤ s.memLen →
      (∃ v, perform (.readU32 a) s = .next (s, .word v) ∧
        v.toNat = (s.mem.byteAt a.toNat).toNat + (s.mem.byteAt (a.toNat + 1)).toNat * 2 ^ 8 +
          (s.mem.byteAt (a.toNat + 2)).toNat * 2 ^ 16 + (s.mem.byteAt (a.toNat + 3)).toNat * 2 ^ 24) ∧
      ∀ v, ∃ t, perform (.writeU32 a v) s = .next (t, .done) ∧ t = { s with mem := t.mem } ∧
        ∀ b, t.mem.byteAt b =
          if a.toNat ≤ b ∧ b < a.toNat + 4 then v.extractLsb' (8 * (b - a.toNat)) 8 else s.mem.byteAt b)

/-- An access with a byte at or above MEM_LEN, computed without wrap, answers OutOfBounds and changes nothing: no part
of a failing write lands. Both are the spec's own reading (R55 and R56, decisions D13 and D14; log entry 17). -/
def Obligations.OutOfBoundsAccessesChangeNothing : Prop :=
  ∀ (s : State) (a : Word) (b : Byte) (h : Half) (v : Word),
    (s.memLen < a.toNat + 1 →
      perform (.readU8 a) s = .next (s, .err .outOfBounds) ∧ perform (.writeU8 a b) s = .next (s, .err .outOfBounds)) ∧
    (s.memLen < a.toNat + 2 →
      perform (.readU16 a) s = .next (s, .err .outOfBounds) ∧ perform (.writeU16 a h) s = .next (s, .err .outOfBounds)) ∧
    (s.memLen < a.toNat + 4 →
      perform (.readU32 a) s = .next (s, .err .outOfBounds) ∧ perform (.writeU32 a v) s = .next (s, .err .outOfBounds))

/-- What a write stores, a read of the same width gives back, and reads of other widths see the same bytes (R59, which
the spec derives, and the source's round-trip property). -/
def Obligations.EveryWidthSeesTheSameBytes : Prop :=
  ∀ (s : State) (a v : Word), s.memLen ≤ 2 ^ 32 → a.toNat + 4 ≤ s.memLen →
    ∃ t, writeU32 a v s = .ok t ∧ readU32 a t = .ok v ∧
      readU16 a t = .ok (v.extractLsb' 0 16) ∧ readU16 (a + 1) t = .ok (v.extractLsb' 8 16) ∧
      readU16 (a + 2) t = .ok (v.extractLsb' 16 16) ∧
      readU8 a t = .ok (v.extractLsb' 0 8) ∧ readU8 (a + 3) t = .ok (v.extractLsb' 24 8) ∧
      (∀ h : Half, ∃ u, writeU16 (a + 1) h t = .ok u ∧ readU16 (a + 1) u = .ok h ∧
        readU32 a u = .ok (v.extractLsb' 24 8 ++ h ++ v.extractLsb' 0 8)) ∧
      ∀ b : Byte, ∃ u, writeU8 (a + 1) b t = .ok u ∧ readU8 (a + 1) u = .ok b ∧
        readU32 a u = .ok (v.extractLsb' 16 16 ++ b ++ v.extractLsb' 0 8)

/-- After a script of transactions, each byte reads as the last value the script stored there, and as it did before
where the script stored none; in a machine just created that is 0x00 (20_memory.md section 5). A write that is not in
bounds stores nothing, not even the bytes of it that lie in bounds: that is decision D14 (log entry 17). -/
def Obligations.AReadReturnsTheLastByteStored : Prop :=
  ∀ (s : State) (ts : List Transaction), (runScript ts s).stop = none →
    (∀ a : Word, a.toNat < s.memLen →
      readU8 a (runScript ts s).state = .ok ((lastByteStored s.memLen ts a.toNat).getD (s.mem.byteAt a.toNat))) ∧
    ∀ (cfg : Config) (n : Nat), create cfg n = .next s →
      ∀ a : Word, a.toNat < n → readU8 a (runScript ts s).state = .ok ((lastByteStored n ts a.toNat).getD 0#8)

/-- Two memories in canonical form that read the same at every address are the same data (the form of 10_state.md
section 4's array is the model's own). -/
def Obligations.MemoriesThatReadAlikeAreEqual : Prop :=
  ∀ m m' : Memory, m.wf → m'.wf → (∀ a, m.byteAt a = m'.byteAt a) → m = m'

/-! The register file. -/

/-- x[0] reads 0 in every state, and a write of it is accepted and changes nothing (10_state.md R21). -/
def Obligations.RegisterZeroIsHardwired : Prop :=
  ∀ (s : State) (v : Word),
    perform (.regRead 0#8) s = .next (s, .word 0#32) ∧ perform (.regWrite 0#8 v) s = .next (s, .done)

/-- Each of x[1] to x[31] takes any value and gives it back, its write changing no other register and nothing but the
register file; and a step changes a register cell only where it performs a register write (R22). -/
def Obligations.RegistersAreFreelyReadAndWritten : Prop :=
  (∀ (n : RegIndex) (v : Word) (s : State), n ≠ 0#8 → n.toNat < 32 →
    ∃ t, perform (.regWrite n v) s = .next (t, .done) ∧ perform (.regRead n) t = .next (t, .word v) ∧
      (∀ m, m ≠ n → readReg m t = readReg m s) ∧ t = { s with x := t.x, written := t.written }) ∧
  ∀ s t : State, step s = .next t → t.x ≠ s.x → ∃ n v rest, s.script = .regWrite n v :: rest

/-- A register index of 32 or more faults, on a read before any other check, and is not masked (42_register_file.md,
decision D7). -/
def Obligations.RegisterIndexesPast31Fault : Prop :=
  ∀ (n : RegIndex) (v : Word) (s : State), 32 ≤ n.toNat →
    perform (.regRead n) s = .fault .regIndexOutOfRange ∧ perform (.regWrite n v) s = .fault .regIndexOutOfRange

/-- A register other than x[0] that nothing has written faults when it is read under REG_INIT = unwritten, and reads as
its cell under REG_INIT = zero or once written (42_register_file.md, decision D8). -/
def Obligations.UnwrittenRegistersFaultWhenRead : Prop :=
  ∀ (n : RegIndex) (s : State) (h : n.toNat < 32), n ≠ 0#8 →
    (s.cfg.regInit = .unwritten → s.written[n.toNat] = false → perform (.regRead n) s = .fault .unwrittenRead) ∧
    (s.cfg.regInit = .zero ∨ s.written[n.toNat] = true → perform (.regRead n) s = .next (s, .word s.x[n.toNat]))

/-- A 5-bit register field names the register of its own number and is always a legal index; decode reads neither the
register file nor memory (30_encoding.md R82). -/
def Obligations.RegisterFieldsAreLegalIndexes : Prop :=
  (∀ (r : RegField) (s : State),
    readRegField r s = readReg (BitVec.ofNat 8 r.toNat) s ∧ readRegField r s ≠ .err .regIndexOutOfRange ∧
    ∀ v, ∃ t, writeRegField r v s = .ok t ∧ readRegField r t = .ok (if r = 0#5 then 0#32 else v)) ∧
  ∀ (w : Word) (s : State) (x : Vector Word 32) (f : Vector Bool 32) (p q : Word) (b : Bool) (m : Memory) (n : Nat),
    let s' : State := { s with x := x, written := f, pc := p, writtenPc := b, fsr := q, mem := m, memLen := n }
    ∃ r, perform (.decode w) s = .next (s, r) ∧ perform (.decode w) s' = .next (s', r)

/-- After a script of transactions, a register reads as the last value the script stored in it, x[0] as 0, and any
register the script did not store in as before (42_register_file.md R166). -/
def Obligations.ARegisterReadReturnsTheLastValueStored : Prop :=
  ∀ (s : State) (ts : List Transaction) (n : RegIndex), (runScript ts s).stop = none →
    readReg n (runScript ts s).state =
      match lastRegStored ts n with
      | some v => if n = 0#8 then .ok 0#32 else .ok v
      | none => readReg n s

/-! The program counter and the status word. -/

/-- A pc write takes any value, aligned or not, a read gives it back, and nothing else changes (42_register_file.md,
decision D17). -/
def Obligations.APcWriteIsReadBack : Prop :=
  ∀ (v : Word) (s : State), ∃ t, perform (.pcWrite v) s = .next (t, .done) ∧ perform .pcRead t = .next (t, .word v) ∧
    t = { s with pc := v, writtenPc := true }

/-- pc_increment in each of its cases, the unwritten check first; in no case does anything but pc change
(42_register_file.md, decisions D9 and D11). -/
def Obligations.PcIncrementAddsFour : Prop :=
  ∀ s : State,
    (s.cfg.regInit = .unwritten → s.writtenPc = false → perform .pcIncrement s = .fault .unwrittenRead) ∧
    (s.pcReadable → s.pc.toNat + 4 < 2 ^ 32 →
      ∃ p : Word, p.toNat = s.pc.toNat + 4 ∧ perform .pcIncrement s = .next ({ s with pc := p }, .done)) ∧
    (s.pcReadable → 2 ^ 32 ≤ s.pc.toNat + 4 → s.cfg.pcOverflow = .wrap →
      ∃ p : Word, p.toNat = s.pc.toNat + 4 - 2 ^ 32 ∧ perform .pcIncrement s = .next ({ s with pc := p }, .done)) ∧
    (s.pcReadable → 2 ^ 32 ≤ s.pc.toNat + 4 → s.cfg.pcOverflow = .fault → perform .pcIncrement s = .fault .pcOverflow)

/-- An access to fsr is refused, and no step reads or writes fsr: a machine that differs only in fsr takes the same
steps and keeps its own fsr (42_register_file.md, decision D10). -/
def Obligations.NothingReadsOrWritesFsr : Prop :=
  ∀ (s : State) (v : Word),
    perform .fsrRead s = .refused .fsrAccess ∧ perform (.fsrWrite v) s = .refused .fsrAccess ∧
    step { s with fsr := v } =
      match step s with
      | .next t => .next { t with fsr := v }
      | .fault f => .fault f
      | .refused r => .refused r

/-! Creation, reset and what every step keeps. -/

/-- A machine made with a length has a memory of that length, every byte zero, and no step changes the length
(10_state.md R27). -/
def Obligations.MemoryIsZeroAtCreationAndKeepsItsLength : Prop :=
  (∀ (cfg : Config) (n : Nat) (s : State), create cfg n = .next s →
    s.memLen = n ∧ ∀ a : Word, a.toNat < n → readU8 a s = .ok 0#8) ∧
  ∀ s t : State, step s = .next t → t.memLen = s.memLen

/-- A machine is made exactly from a well-formed table and a length of at most 2^32; with another it is refused
(decisions D5 and D12). A well-formed table has one entry an opcode (log entry 15), and the table is checked before the
length. -/
def Obligations.CreationRefusesMalformedParameters : Prop :=
  ∀ (cfg : Config) (n : Nat),
    ((∀ e ∈ cfg.fmtTable, e.1.toNat % 4 = 3) → (cfg.fmtTable.map Prod.fst).Nodup → n ≤ 2 ^ 32 →
      ∃ s, create cfg n = .next s ∧ s.cfg = cfg) ∧
    ((∃ e ∈ cfg.fmtTable, e.1.toNat % 4 ≠ 3) → create cfg n = .refused .malformedTable) ∧
    (¬ (cfg.fmtTable.map Prod.fst).Nodup → create cfg n = .refused .malformedTable) ∧
    ((∀ e ∈ cfg.fmtTable, e.1.toNat % 4 = 3) → (cfg.fmtTable.map Prod.fst).Nodup → 2 ^ 32 < n →
      create cfg n = .refused .memoryTooLong)

/-- What the register file reads as in a machine just created: x[0] as 0; the rest and pc as 0 under REG_INIT = zero,
and as a fault under REG_INIT = unwritten (decisions D8 and D9). -/
def Obligations.RegistersAtCreation : Prop :=
  ∀ (cfg : Config) (n : Nat) (s : State), create cfg n = .next s →
    readReg 0#8 s = .ok 0#32 ∧
    (cfg.regInit = .zero → readPc s = .ok 0#32 ∧ ∀ r : RegIndex, r.toNat < 32 → readReg r s = .ok 0#32) ∧
    (cfg.regInit = .unwritten → readPc s = .err .unwrittenRead ∧ pcIncrement s = .err .unwrittenRead ∧
      ∀ r : RegIndex, r ≠ 0#8 → r.toNat < 32 → readReg r s = .err .unwrittenRead)

/-- The machine right after reset satisfies the invariant, whose clauses on unwritten cells and on memory's form are the
model's choices (log entries 3, 7 and 12). -/
def Obligations.ResetSatisfiesTheInvariant : Prop := State.reset.Inv

/-- Every machine that can be made satisfies the invariant. Two of its clauses are the model's own choices and no rule
of the spec: that an unwritten cell or pc holds 0 under REG_INIT = unwritten, where the spec gives no value (log entry
7), and the canonical form of memory (log entry 12). -/
def Obligations.CreatedMachinesSatisfyTheInvariant : Prop :=
  ∀ (cfg : Config) (n : Nat) (s : State), create cfg n = .next s → s.Inv

/-- Every step keeps the invariant: the table and the length stay legal, memory stays canonical and inside its length,
the zero cell stays 0, and a cell nothing has written keeps its value at creation. That this value is 0 under REG_INIT =
unwritten is the model's choice (log entry 7), and so is memory's canonical form (log entry 12). -/
def Obligations.EveryStepKeepsTheInvariant : Prop :=
  ∀ s t : State, s.Inv → step s = .next t → t.Inv

/-- No step changes the table, the other parameters or the memory's length (10_state.md R35). -/
def Obligations.NoStepChangesTheParameters : Prop :=
  ∀ s t : State, step s = .next t →
    t.cfg.fmtTable = s.cfg.fmtTable ∧ t.cfg.pcOverflow = s.cfg.pcOverflow ∧ t.cfg.regInit = s.cfg.regInit ∧
    t.memLen = s.memLen

/-! Errors. -/

/-- An operation that ends in a returned error leaves the state as it was and is no fault: the step that performs it
answers a next state, and the block goes on from there, the error in the caller's hands; neither what is in the caller's
hands nor the end of a run has a part in any operation, so every later one behaves as if the failed one had never been
issued (60_exceptions.md section 2). That the caller's operations wait in a script and the error is handed over as a
reply is the model's choice (log entry 8), and so is that an operation issued after the end of a run clears it (log
entry 9). -/
def Obligations.ReturnedErrorsChangeNothing : Prop :=
  (∀ (t : Transaction) (s u : State) (e : ReturnedError), perform t s = .next (u, .err e) → u = s) ∧
  (∀ (t : Transaction) (rest : List Transaction) (s u : State) (e : ReturnedError), s.script = t :: rest →
    perform t { s with script := rest, ended := none } = .next (u, .err e) →
    step s = .next { s with script := rest, ended := none, replies := .err e :: s.replies }) ∧
  ∀ (t : Transaction) (s : State) (q : List Reply) (z : Option ReturnedError),
    perform t { s with replies := q, ended := z } =
      match perform t s with
      | .next (u, r) => .next ({ u with replies := q, ended := z }, r)
      | .fault f => .fault f
      | .refused r => .refused r

/-- A step faults only for a cause the spec names: an index of 32 or more in the register transaction it performs; a
register or pc it reads that nothing has written, under REG_INIT = unwritten; or a pc_increment past 2^32 - 1 under
PC_OVERFLOW = fault, of its own or of a pass of the reference loop (60_exceptions.md section 1, decisions D7 to D11 and
D26; log entries 1, 8 and 9). -/
def Obligations.StepsFaultOnlyForNamedCauses : Prop :=
  ∀ s : State,
    (step s = .fault .regIndexOutOfRange →
      ∃ n rest, 32 ≤ n.toNat ∧ (s.script = .regRead n :: rest ∨ ∃ v, s.script = .regWrite n v :: rest)) ∧
    (step s = .fault .unwrittenRead →
      s.cfg.regInit = .unwritten ∧
      ((∃ n rest, n ≠ 0#8 ∧ s.script = .regRead n :: rest ∧ ∃ h : n.toNat < 32, s.written[n.toNat] = false) ∨
        s.writtenPc = false ∧
          ((∃ rest, s.script = .pcRead :: rest ∨ s.script = .pcIncrement :: rest) ∨ s.script = [] ∧ s.ended = none))) ∧
    (step s = .fault .pcOverflow →
      s.cfg.pcOverflow = .fault ∧ s.pcReadable ∧ 0xFFFFFFFC ≤ s.pc.toNat ∧
      ((∃ rest, s.script = .pcIncrement :: rest) ∨ s.script = [] ∧ s.ended = none))

/-- A run that a fault or a refusal has stopped stays as it is, in the state the last step began in; and a run of the
reference loop that a returned error has ended stays in its end state while its caller issues nothing (60_exceptions.md
section 2 and 70_reset_and_hazards.md section 3, decisions D7, D20 and D26; log entries 9 and 10). -/
def Obligations.AnEndedRunStaysEnded : Prop :=
  ∀ (r : RunState) (k n : Nat),
    ((r.go k).stop ≠ none → r.go (k + n) = r.go k) ∧
    (∀ f, r.stop = none → step r.state = .fault f → r.go (k + 1) = { state := r.state, stop := some (.fault f) }) ∧
    (∀ e, r.stop = none → step r.state = .refused e → r.go (k + 1) = { state := r.state, stop := some (.refused e) }) ∧
    (r.state.script = [] → r.state.ended ≠ none → r.go k = r)

/-- Under REG_INIT = zero and PC_OVERFLOW = wrap the reference loop meets no fault and no refusal, however long it runs:
it goes on, or ends with a returned error and stays in its end state (60_exceptions.md section 1). The loop is the
spec's own (decision D26; log entry 1), and that the end of a run is a state and no fault follows log entry 9. -/
def Obligations.TheLoopIsSafeUnderZeroAndWrap : Prop :=
  ∀ (k : Nat) (s : State), s.script = [] → s.cfg.regInit = .zero → s.cfg.pcOverflow = .wrap → SafeRun k s

/-- The codes of the errors (60_exceptions.md section 1, decision D4). -/
def Obligations.ErrorCodes : Prop :=
  (ReturnedError.decode .unsupportedEncoding).code = 1 ∧ (ReturnedError.decode .unknownOpcode).code = 2 ∧
  ReturnedError.outOfBounds.code = 3 ∧ Fault.regIndexOutOfRange.code = 4 ∧ Fault.unwrittenRead.code = 5 ∧
  Fault.pcOverflow.code = 6

/-! The step. -/

/-- Where no transaction waits, no run has ended and the four bytes at pc decode to an instruction, the step is that
instruction's meaning. The fetch is decision D16 (log entry 17); that a step is a pass of the reference loop is decision
D26 (log entry 1), and that none is made once a run has ended is log entry 9. -/
def Obligations.AStepRunsTheDecodedInstruction : Prop :=
  ∀ (s : State) (i : Instr), s.script = [] → s.ended = none → s.pcReadable → s.pc.toNat + 4 ≤ s.memLen →
    decodeBytes s.cfg.fmtTable [s.mem.byteAt s.pc.toNat, s.mem.byteAt (s.pc.toNat + 1), s.mem.byteAt (s.pc.toNat + 2),
      s.mem.byteAt (s.pc.toNat + 3)] = .ok (i, []) →
    step s = exec i s

/-- Where a transaction waits, the step performs it, takes it off the script and hands over its reply
(70_reset_and_hazards.md section 2; log entry 8); the mark of an ended run is cleared (log entry 9). -/
def Obligations.AStepPerformsTheNextTransaction : Prop :=
  ∀ (t : Transaction) (rest : List Transaction) (s u : State) (r : Reply), s.script = t :: rest →
    perform t { s with script := rest, ended := none } = .next (u, r) →
    step s = .next { u with script := rest, ended := none, replies := r :: s.replies }

/-- Where no transaction waits and no run has ended, the step is one pass of the reference loop told in the block's own
transactions: pc read, read_u32(pc), decode, pc_increment, ending at the first error. The loop is the spec's own
(70_reset_and_hazards.md section 2, decision D26; log entries 1 and 9). -/
def Obligations.AStepIsOnePassOfTheReferenceLoop : Prop :=
  ∀ (s : State) (o : Host.Outcome State Fault Refusal), s.script = [] → s.ended = none →
    (step s = o ↔ LoopPass s o)

/-- A word stored at pc is the word the next pass of the loop fetches, with nothing in between (20_memory.md section 5,
decision D16; log entry 17). That the step after the store is a pass of the reference loop is decision D26 (log entries
1 and 8), and that the store lets the loop pass again where a run had ended is the model's choice (log entry 9). -/
def Obligations.AFetchSeesAStoreToCode : Prop :=
  ∀ (s : State) (w : Word) (i : Instr), s.script = [.writeU32 s.pc w] → s.pcReadable → s.pc.toNat + 4 ≤ s.memLen →
    decodeInstr s.cfg.fmtTable w = .ok i → ∃ t, step s = .next t ∧ t.script = [] ∧ step t = exec i t

/-- The reference loop faults where pc cannot be read. Where the four bytes at pc leave memory, and where decode rejects
the word, its run ends with the returned error, which the caller is handed and which is no fault: pc and everything else
stay as they are, and the machine stays in that end state (70_reset_and_hazards.md section 3, 60_exceptions.md section
2, decision D26; log entries 1 and 9). -/
def Obligations.TheLoopEndsAtItsFirstError : Prop :=
  ∀ s : State, s.script = [] → s.ended = none →
    (¬ s.pcReadable → step s = .fault .unwrittenRead) ∧
    (s.pcReadable → s.memLen < s.pc.toNat + 4 →
      step s = .next { s with ended := some .outOfBounds, replies := .err .outOfBounds :: s.replies }) ∧
    (∀ (w : Word) (e : DecodeError), s.pcReadable → readU32 s.pc s = .ok w → decodeWord s.cfg.fmtTable w = .err e →
      step s = .next { s with ended := some (.decode e), replies := .err (.decode e) :: s.replies }) ∧
    ∀ (t : State) (e : ReturnedError), step s = .next t → t.ended = some e → step t = .next t

/-- The word withFetchWord places is the one the very next step runs (log entries 16 and 20), in a pass of the reference
loop (decision D26; log entry 1). -/
def Obligations.APlacedInstructionRunsNext : Prop :=
  ∀ (s : State) (i : Instr), i.wf s.cfg.fmtTable →
    step (s.withFetchWord 32 (encode i).toNat) = exec i (s.withFetchWord 32 (encode i).toNat)

/-! The instructions. -/

/-- LOAD, OP-IMM, JALR and SYSTEM complete where pc can be advanced: the executor is handed the format I Instruction of
their word, pc advances by 4, and nothing else of the block changes. The pass is the spec's own reference loop (decision
D26; log entry 1), and the opcodes but LOAD's are its own choice (decision D6; log entry 2). -/
def Obligations.FormatIInstructionsComplete : Prop :=
  ∀ (s : State) (rd rs1 : RegField) (imm : BitVec 12) (funct3 : BitVec 3), s.pcAdvances →
    let word (o : Nat) : Nat := rd.toNat * 2 ^ 27 + rs1.toNat * 2 ^ 22 + imm.toNat * 2 ^ 10 + funct3.toNat * 2 ^ 7 + o
    CompletesAs (.load rd rs1 imm funct3) s (word 0x03) 0x03#7 .I ∧
    CompletesAs (.opImm rd rs1 imm funct3) s (word 0x13) 0x13#7 .I ∧
    CompletesAs (.jalr rd rs1 imm funct3) s (word 0x67) 0x67#7 .I ∧
    CompletesAs (.system rd rs1 imm funct3) s (word 0x73) 0x73#7 .I

/-- STORE and BRANCH complete where pc can be advanced: the executor is handed the format B Instruction of their word,
its immediate in two parts, pc advances by 4, and nothing else of the block changes (decisions D6 and D26; log entries 1
and 2). -/
def Obligations.FormatBInstructionsComplete : Prop :=
  ∀ (s : State) (rs1 rs2 : RegField) (imm : BitVec 12) (funct3 : BitVec 3), s.pcAdvances →
    let word (o : Nat) : Nat :=
      imm.toNat / 2 ^ 7 * 2 ^ 27 + rs1.toNat * 2 ^ 22 + rs2.toNat * 2 ^ 17 + imm.toNat % 2 ^ 7 * 2 ^ 10 +
        funct3.toNat * 2 ^ 7 + o
    CompletesAs (.store rs1 rs2 imm funct3) s (word 0x23) 0x23#7 .B ∧
    CompletesAs (.branch rs1 rs2 imm funct3) s (word 0x63) 0x63#7 .B

/-- AUIPC and LUI complete where pc can be advanced: the executor is handed the format L Instruction of their word, pc
advances by 4, and nothing else of the block changes (decisions D6 and D26; log entries 1 and 2). -/
def Obligations.FormatLInstructionsComplete : Prop :=
  ∀ (s : State) (rd : RegField) (imm : BitVec 20), s.pcAdvances →
    CompletesAs (.auipc rd imm) s (rd.toNat * 2 ^ 27 + imm.toNat * 2 ^ 7 + 0x17) 0x17#7 .L ∧
    CompletesAs (.lui rd imm) s (rd.toNat * 2 ^ 27 + imm.toNat * 2 ^ 7 + 0x37) 0x37#7 .L

/-- OP and JAL complete where pc can be advanced: the executor is handed the Instruction of their word, in format R and
in format J, pc advances by 4, and nothing else of the block changes (decisions D6 and D26; log entries 1 and 2). -/
def Obligations.OpAndJalComplete : Prop :=
  ∀ (s : State) (rd rs1 rs2 : RegField) (funct10 : BitVec 10) (offset : BitVec 25), s.pcAdvances →
    CompletesAs (.op rd rs1 rs2 funct10) s
      (rd.toNat * 2 ^ 27 + rs1.toNat * 2 ^ 22 + rs2.toNat * 2 ^ 17 + funct10.toNat * 2 ^ 7 + 0x33) 0x33#7 .R ∧
    CompletesAs (.jal offset) s (offset.toNat * 2 ^ 7 + 0x6F) 0x6F#7 .J

/-- What every instruction leaves unchanged where it answers a next state: every register and written flag, fsr, every
byte of memory (no form stores), the memory's length, the parameters, the script and the end of a run; the caller keeps
every earlier reply. pc alone may change; what the external executor does is outside the block (41_decoder.md section 4,
00_scope.md section 2; log entry 1). -/
def Obligations.InstructionsChangeOnlyPc : Prop :=
  ∀ (i : Instr) (s t : State), exec i s = .next t →
    t.x = s.x ∧ t.written = s.written ∧ t.writtenPc = s.writtenPc ∧ t.fsr = s.fsr ∧
    (∀ a, t.mem.byteAt a = s.mem.byteAt a) ∧ t.mem = s.mem ∧ t.memLen = s.memLen ∧ t.cfg = s.cfg ∧
    t.script = s.script ∧ t.ended = s.ended ∧ t.replies.drop 1 = s.replies

/-- Where pc cannot be advanced every instruction stops: with UnwrittenRead where pc may not be read, and with
PcOverflow where the sum leaves 32 bits under PC_OVERFLOW = fault (42_register_file.md, decisions D9 and D11). The spec
gives an instruction no change of pc and no error of its own: that it advances pc, and so stops where pc_increment
faults, is the reference loop's, the spec's own choice and the model's reading of it (decision D26; log entry 1). -/
def Obligations.InstructionsStopWherePcCannotAdvance : Prop :=
  ∀ (i : Instr) (s : State),
    (¬ s.pcReadable → exec i s = .fault .unwrittenRead) ∧
    (s.pcReadable → 2 ^ 32 ≤ s.pc.toNat + 4 → s.cfg.pcOverflow = .fault → exec i s = .fault .pcOverflow)
end

