-- ==== Sys2Proof/Laws/Formats.lean ====
section
/-! SUPPORT. Each field of a word an encoder built, and the opcode of each encoded instruction's word. -/

namespace Sys2Proof

/-- The bits of a placed field. -/
theorem getLsbD_place {n : Nat} (lo : Nat) (v : BitVec n) (i : Nat) :
    (place lo v).getLsbD i = (decide (i < 32) && !decide (i < lo) && v.getLsbD (i - lo)) := by
  simp [place]
  grind

section
variable (rd rs1 rs2 rs3 : RegField) (imm : BitVec 12) (upper : BitVec 20) (offset : BitVec 25) (funct3 : BitVec 3)
  (funct5 : BitVec 5) (funct10 : BitVec 10) (o : Opcode)

@[simp] theorem opcodeOf_encodeR : opcodeOf (encodeR rd rs1 rs2 funct10 o) = o := by
  unfold opcodeOf encodeR; ext i hi; simp [getLsbD_place]; grind
@[simp] theorem rd_encodeR : Formats.R.rd (encodeR rd rs1 rs2 funct10 o) = rd := by
  unfold Formats.R.rd encodeR; ext i hi; simp [getLsbD_place]; grind
@[simp] theorem rs1_encodeR : Formats.R.rs1 (encodeR rd rs1 rs2 funct10 o) = rs1 := by
  unfold Formats.R.rs1 encodeR; ext i hi; simp [getLsbD_place]; grind
@[simp] theorem rs2_encodeR : Formats.R.rs2 (encodeR rd rs1 rs2 funct10 o) = rs2 := by
  unfold Formats.R.rs2 encodeR; ext i hi; simp [getLsbD_place]; grind
@[simp] theorem funct10_encodeR : Formats.R.funct10 (encodeR rd rs1 rs2 funct10 o) = funct10 := by
  unfold Formats.R.funct10 encodeR; ext i hi; simp [getLsbD_place]; grind

@[simp] theorem opcodeOf_encodeR4 : opcodeOf (encodeR4 rd rs1 rs2 rs3 funct5 o) = o := by
  unfold opcodeOf encodeR4; ext i hi; simp [getLsbD_place]; grind

@[simp] theorem opcodeOf_encodeI : opcodeOf (encodeI rd rs1 imm funct3 o) = o := by
  unfold opcodeOf encodeI; ext i hi; simp [getLsbD_place]; grind
@[simp] theorem rd_encodeI : Formats.I.rd (encodeI rd rs1 imm funct3 o) = rd := by
  unfold Formats.I.rd encodeI; ext i hi; simp [getLsbD_place]; grind
@[simp] theorem rs1_encodeI : Formats.I.rs1 (encodeI rd rs1 imm funct3 o) = rs1 := by
  unfold Formats.I.rs1 encodeI; ext i hi; simp [getLsbD_place]; grind
@[simp] theorem imm_encodeI : Formats.I.imm (encodeI rd rs1 imm funct3 o) = imm := by
  unfold Formats.I.imm encodeI; ext i hi; simp [getLsbD_place]; grind
@[simp] theorem funct3_encodeI : Formats.I.funct3 (encodeI rd rs1 imm funct3 o) = funct3 := by
  unfold Formats.I.funct3 encodeI; ext i hi; simp [getLsbD_place]; grind

@[simp] theorem opcodeOf_encodeB : opcodeOf (encodeB rs1 rs2 imm funct3 o) = o := by
  unfold opcodeOf encodeB; ext i hi; simp [getLsbD_place]; grind
@[simp] theorem rs1_encodeB : Formats.B.rs1 (encodeB rs1 rs2 imm funct3 o) = rs1 := by
  unfold Formats.B.rs1 encodeB; ext i hi; simp [getLsbD_place]; grind
@[simp] theorem rs2_encodeB : Formats.B.rs2 (encodeB rs1 rs2 imm funct3 o) = rs2 := by
  unfold Formats.B.rs2 encodeB; ext i hi; simp [getLsbD_place]; grind
@[simp] theorem imm_encodeB : Formats.B.imm (encodeB rs1 rs2 imm funct3 o) = imm := by
  unfold Formats.B.imm encodeB; ext i hi; simp [getLsbD_place]; grind
@[simp] theorem funct3_encodeB : Formats.B.funct3 (encodeB rs1 rs2 imm funct3 o) = funct3 := by
  unfold Formats.B.funct3 encodeB; ext i hi; simp [getLsbD_place]; grind

@[simp] theorem opcodeOf_encodeL : opcodeOf (encodeL rd upper o) = o := by
  unfold opcodeOf encodeL; ext i hi; simp [getLsbD_place]; grind
@[simp] theorem rd_encodeL : Formats.L.rd (encodeL rd upper o) = rd := by
  unfold Formats.L.rd encodeL; ext i hi; simp [getLsbD_place]; grind
@[simp] theorem imm_encodeL : Formats.L.imm (encodeL rd upper o) = upper := by
  unfold Formats.L.imm encodeL; ext i hi; simp [getLsbD_place]; grind

@[simp] theorem opcodeOf_encodeJ : opcodeOf (encodeJ offset o) = o := by
  unfold opcodeOf encodeJ; ext i hi; simp [getLsbD_place]; grind
@[simp] theorem offset_encodeJ : Formats.J.offset (encodeJ offset o) = offset := by
  unfold Formats.J.offset encodeJ; ext i hi; simp [getLsbD_place]; grind

end

@[simp] theorem Instruction.ofWord_bits (w : Word) (k : FormatKind) : (Instruction.ofWord w k).bits = w := rfl
@[simp] theorem Instruction.ofWord_opcode (w : Word) (k : FormatKind) : (Instruction.ofWord w k).opcode = opcodeOf w := rfl
@[simp] theorem Instruction.ofWord_format (w : Word) (k : FormatKind) : (Instruction.ofWord w k).format = k := rfl

/-- The length check reads the opcode's own low bits (30_encoding.md R72). -/
theorem lowBits_opcodeOf (w : Word) : (opcodeOf w).extractLsb' 0 2 = w.extractLsb' 0 2 := by
  unfold opcodeOf; ext i hi; simp

/-- What decode can answer: one of three cases, each with what makes it so (41_decoder.md R130). -/
theorem decodeWord_cases (t : FmtTable) (w : Word) :
    (w.extractLsb' 0 2 ≠ 0b11#2 ∧ decodeWord t w = .err .unsupportedEncoding) ∨
    (w.extractLsb' 0 2 = 0b11#2 ∧ t.formatOf (opcodeOf w) = none ∧ decodeWord t w = .err .unknownOpcode) ∨
    (∃ k, w.extractLsb' 0 2 = 0b11#2 ∧ t.formatOf (opcodeOf w) = some k ∧ decodeWord t w = .ok (Instruction.ofWord w k)) := by
  unfold decodeWord
  by_cases h : w.extractLsb' 0 2 = 0b11#2
  · cases ht : t.formatOf (opcodeOf w) <;> simp [h]
  · simp [h]

/-- The length check as a number. -/
theorem lowBits_eq_iff (w : Word) : w.extractLsb' 0 2 = 0b11#2 ↔ w.toNat % 4 = 3 := by
  rw [← BitVec.toNat_inj]; simp [BitVec.extractLsb'_toNat]

/-- The opcode as a number. -/
theorem opcodeOf_eq (w : Word) : opcodeOf w = BitVec.ofNat 7 (w.toNat % 128) := by
  apply BitVec.eq_of_toNat_eq; simp [opcodeOf, BitVec.extractLsb'_toNat]

/-- The bytes memory holds for a word make up the word again (20_memory.md R52). -/
theorem wordOfBytes_bytes (w : Word) :
    wordOfBytes (w.extractLsb' 0 8) (w.extractLsb' 8 8) (w.extractLsb' 16 8) (w.extractLsb' 24 8) = w := by
  unfold wordOfBytes; ext i hi; simp [place]; grind

/-! Words as sums. -/

/-- An OR of two numbers without common bits is their sum. -/
theorem or_eq_add {x y n : Nat} (hx : 2 ^ n ∣ x) (hy : y < 2 ^ n) : x ||| y = x + y := by
  obtain ⟨a, rfl⟩ := hx
  rw [Nat.mul_comm, ← Nat.shiftLeft_eq, Nat.shiftLeft_add_eq_or_of_lt hy]

/-- A placed field as a number. -/
theorem place_toNat {n lo : Nat} (v : BitVec n) (h : n + lo ≤ 32) : (place lo v).toNat = v.toNat * 2 ^ lo := by
  have hv : v.toNat * 2 ^ lo < 2 ^ 32 :=
    calc v.toNat * 2 ^ lo < 2 ^ n * 2 ^ lo := by gcongr; exact v.isLt
      _ = 2 ^ (n + lo) := by rw [pow_add]
      _ ≤ 2 ^ 32 := Nat.pow_le_pow_right (by omega) h
  have hw : v.toNat < 2 ^ 32 := lt_of_lt_of_le v.isLt (Nat.pow_le_pow_right (by omega) (by omega))
  simp only [place, BitVec.toNat_shiftLeft, BitVec.toNat_setWidth, Nat.mod_eq_of_lt hw, Nat.shiftLeft_eq, Nat.mod_eq_of_lt hv]

end Sys2Proof
end

