-- ==== Sys2Proof/Laws/Memory.lean ====
section
/-! SUPPORT. Memory's laws: what a byte reads as after a write, which bytes a write leaves alone, and that every memory
operation keeps the canonical form and the bounds. -/

namespace Sys2Proof.Machine

theorem Memory.byteAt_without (m : Memory) (a b : Nat) :
    (m.without a).byteAt b = if b = a then 0#8 else m.byteAt b := by
  induction m with
  | nil => simp [Memory.without, Memory.byteAt]
  | cons c rest ih =>
    simp only [Memory.without] at ih
    by_cases hc : c.1 = a <;> by_cases hb : c.1 = b <;> simp_all [Memory.without, Memory.byteAt]

theorem Memory.byteAt_listed (m : Memory) (a b : Nat) (v : Byte) (ha : ∀ c ∈ m, c.1 ≠ a) :
    (m.listed a v).byteAt b = if b = a then v else m.byteAt b := by
  induction m with
  | nil =>
    by_cases hb : b = a <;> simp [Memory.listed, Memory.byteAt, hb]
    exact fun h => absurd h.symm hb
  | cons c rest ih =>
    have hc : c.1 ≠ a := ha c (by simp)
    have ih := ih fun d hd => ha d (by simp [hd])
    unfold Memory.listed
    split
    · by_cases hb : b = a
      · simp [Memory.byteAt, hb]
      · simp [Memory.byteAt, hb, Ne.symm hb]
    · by_cases hb : b = a
      · simp_all [Memory.byteAt]
      · simp [Memory.byteAt, hb, ih]

theorem Memory.address_of_mem_without {m : Memory} {a : Nat} {c : Host.Cell} (h : c ∈ m.without a) :
    c ∈ m ∧ c.1 ≠ a := by simpa [Memory.without] using h

/-- The read-after-write law of one byte. -/
@[simp] theorem Memory.byteAt_setByte (m : Memory) (a b : Nat) (v : Byte) :
    (m.setByte a v).byteAt b = if b = a then v else m.byteAt b := by
  unfold Memory.setByte
  split
  · next h => simp [Memory.byteAt_without, h]
  · rw [Memory.byteAt_listed _ _ _ _ fun c hc => (Memory.address_of_mem_without hc).2, Memory.byteAt_without]
    split <;> simp_all

theorem Memory.mem_listed {m : Memory} {a : Nat} {v : Byte} {c : Host.Cell} :
    c ∈ m.listed a v ↔ c = (a, v) ∨ c ∈ m := by
  induction m with
  | nil => simp [Memory.listed]
  | cons d rest ih =>
    unfold Memory.listed
    split
    · simp
    · simp only [List.mem_cons, ih]; tauto

theorem Memory.mem_of_mem_setByte {m : Memory} {a : Nat} {v : Byte} {c : Host.Cell} (h : c ∈ m.setByte a v) :
    (c = (a, v) ∧ v ≠ 0#8) ∨ c ∈ m := by
  unfold Memory.setByte at h
  split at h
  · exact .inr (Memory.address_of_mem_without h).1
  · next hv =>
    rcases Memory.mem_listed.1 h with h | h
    · exact .inl ⟨h, hv⟩
    · exact .inr (Memory.address_of_mem_without h).1

theorem Memory.listed_rising (m : Memory) (a : Nat) (v : Byte) (hm : m.Pairwise (fun c d => c.1 < d.1))
    (ha : ∀ c ∈ m, c.1 ≠ a) : (m.listed a v).Pairwise (fun c d => c.1 < d.1) := by
  induction m with
  | nil => simp [Memory.listed]
  | cons c rest ih =>
    have hc : c.1 ≠ a := ha c (by simp)
    rw [List.pairwise_cons] at hm
    unfold Memory.listed
    split
    · next h =>
      refine List.pairwise_cons.2 ⟨fun d hd => ?_, List.pairwise_cons.2 hm⟩
      rcases List.mem_cons.1 hd with rfl | hd
      · exact h
      · exact lt_trans h (hm.1 d hd)
    · next h =>
      refine List.pairwise_cons.2 ⟨fun d hd => ?_, ih hm.2 fun d hd => ha d (by simp [hd])⟩
      rcases Memory.mem_listed.1 hd with rfl | hd
      · show c.1 < a; omega
      · exact hm.1 d hd

/-- Writing one byte keeps the canonical form. -/
theorem Memory.wf_setByte {m : Memory} (h : m.wf) (a : Nat) (v : Byte) : (m.setByte a v).wf := by
  have hw : (m.without a).Pairwise (fun c d => c.1 < d.1) := h.1.filter _
  refine ⟨?_, fun c hc => ?_⟩
  · unfold Memory.setByte
    split
    · exact hw
    · exact Memory.listed_rising _ a v hw fun c hc => (Memory.address_of_mem_without hc).2
  · rcases Memory.mem_of_mem_setByte hc with ⟨rfl, hv⟩ | hc
    · exact hv
    · exact h.2 c hc

/-- Writing keeps the canonical form. -/
theorem Memory.wf_write {m : Memory} (h : m.wf) (a n : Nat) (v : BitVec (8 * n)) : (m.write a n v).wf := by
  induction n generalizing m a with
  | zero => exact h
  | succ n ih => exact ih (Memory.wf_setByte h _ _) _ _

/-- Every entry of a written memory lies in the stored bytes or stood there before. -/
theorem Memory.mem_of_mem_write {m : Memory} {a n : Nat} {v : BitVec (8 * n)} {c : Host.Cell} (h : c ∈ m.write a n v) :
    (a ≤ c.1 ∧ c.1 < a + n) ∨ c ∈ m := by
  induction n generalizing m a with
  | zero => exact .inr h
  | succ n ih =>
    rcases ih h with h | h
    · exact .inl (by omega)
    · rcases Memory.mem_of_mem_setByte h with ⟨rfl, -⟩ | h
      · exact .inl (by simp)
      · exact .inr h

/-- What one byte reads as after a write of n bytes (20_memory.md R54). -/
theorem Memory.byteAt_write (m : Memory) (a n : Nat) (v : BitVec (8 * n)) (b : Nat) :
    (m.write a n v).byteAt b =
      if a ≤ b ∧ b < a + n then v.extractLsb' (8 * (b - a)) 8 else m.byteAt b := by
  induction n generalizing m a with
  | zero => simp [Memory.write]
  | succ n ih =>
    simp only [Memory.write, ih, Memory.byteAt_setByte]
    by_cases h1 : a + 1 ≤ b ∧ b < a + 1 + n
    · have h2 : a ≤ b ∧ b < a + (n + 1) := by omega
      rw [if_pos h1, if_pos h2]
      ext i hi
      simp only [BitVec.getElem_extractLsb', BitVec.getLsbD_extractLsb']
      have h3 : 8 * (b - (a + 1)) + i < 8 * n := by omega
      have h4 : 8 + (8 * (b - (a + 1)) + i) = 8 * (b - a) + i := by omega
      simp [h3, h4]
    · rw [if_neg h1]
      by_cases h2 : b = a
      · subst h2; simp
      · rw [if_neg h2, if_neg (by omega)]

/-- A memory read is determined by the bytes it covers (20_memory.md R53). -/
theorem Memory.extract_read (m : Memory) (a n k : Nat) (hk : k < n) :
    (m.read a n).extractLsb' (8 * k) 8 = m.byteAt (a + k) := by
  induction n generalizing a k with
  | zero => omega
  | succ n ih =>
    cases k with
    | zero =>
      ext i hi
      have h : i < 8 * (n + 1) := by omega
      simp [Memory.read, h, hi]
    | succ k =>
      have := ih (a + 1) k (by omega)
      rw [show a + (k + 1) = a + 1 + k by omega, ← this]
      ext i hi
      have h1 : 8 * (k + 1) + i < 8 * (n + 1) := by omega
      have h2 : ¬ 8 * (k + 1) + i < 8 := by omega
      have h3 : 8 * (k + 1) + i - 8 = 8 * k + i := by omega
      have h4 : (m.byteAt a).getLsbD (8 * (k + 1) + i) = false := BitVec.getLsbD_of_ge _ _ (by omega)
      simp [Memory.read, h1, h2, h3, h4]

/-- The bits of a memory read. -/
theorem Memory.getLsbD_read (m : Memory) (a n i : Nat) (hi : i < 8 * n) :
    (m.read a n).getLsbD i = (m.byteAt (a + i / 8)).getLsbD (i % 8) := by
  have h := Memory.extract_read m a n (i / 8) (by omega)
  have : ((m.read a n).extractLsb' (8 * (i / 8)) 8).getLsbD (i % 8) = (m.read a n).getLsbD i := by
    rw [BitVec.getLsbD_extractLsb', show 8 * (i / 8) + i % 8 = i by omega]
    simp [Nat.mod_lt]
  rw [← this, h]

/-- Two memories that agree on the bytes of a read give the same value. -/
theorem Memory.read_congr {m m' : Memory} {a a' n : Nat} (h : ∀ k < n, m.byteAt (a + k) = m'.byteAt (a' + k)) :
    m.read a n = m'.read a' n := by
  apply BitVec.eq_of_getLsbD_eq
  intro i hi
  rw [Memory.getLsbD_read _ _ _ _ hi, Memory.getLsbD_read _ _ _ _ hi, h _ (by omega)]

/-- A read after a write, from what each of its bytes then is. -/
theorem Memory.read_write {m : Memory} {a n b k : Nat} {v : BitVec (8 * n)} {w : BitVec (8 * k)}
    (h : ∀ i < k, (if a ≤ b + i ∧ b + i < a + n then v.extractLsb' (8 * (b + i - a)) 8 else m.byteAt (b + i)) =
      w.extractLsb' (8 * i) 8) : (m.write a n v).read b k = w := by
  apply BitVec.eq_of_getLsbD_eq
  intro i hi
  rw [Memory.getLsbD_read _ _ _ _ hi, Memory.byteAt_write, h _ (by omega), BitVec.getLsbD_extractLsb',
    show 8 * (i / 8) + i % 8 = i by omega]
  simp; omega

/-- The read-after-write law of one access. -/
@[simp] theorem Memory.read_write_same (m : Memory) (a n : Nat) (v : BitVec (8 * n)) : (m.write a n v).read a n = v :=
  Memory.read_write fun i hi => by rw [if_pos (by omega)]; simp

end Sys2Proof.Machine
end

