-- ==== Sys2Proof/Laws/Registers.lean ====
section
/-! SUPPORT. What each operation of the register file and of pc can answer, said once. -/

namespace Sys2Proof.Machine

/-- Everything a register write that ends can have done (42_register_file.md R161). -/
theorem writeReg_cases {n : RegIndex} {v : Word} {s t : State} (h : writeReg n v s = .ok t) :
    (n = 0#8 ∧ t = s) ∨
    (n ≠ 0#8 ∧ ∃ hn : n.toNat < 32,
      t = { s with x := s.x.set n.toNat v, written := s.written.set n.toNat true }) := by
  unfold writeReg at h
  split at h
  · next hn =>
    split at h
    · next h0 => exact .inl ⟨h0, by simpa using h.symm⟩
    · next h0 => exact .inr ⟨h0, hn, by simpa using h.symm⟩
  · simp at h

/-- pc as a number after it advances by 4 without overflow (R164). -/
theorem pc_add_four_toNat {s : State} (h : s.pc.toNat + 4 < 2 ^ 32) : (s.pc + 4#32).toNat = s.pc.toNat + 4 := by
  simp [BitVec.toNat_add]; omega

/-- The overflowing sum modulo 2^32 is the word's own addition (R164). -/
theorem pc_wrap (p : Word) : BitVec.ofNat 32 ((p.toNat + 4) % 2 ^ 32) = p + 4#32 := by
  apply BitVec.eq_of_toNat_eq
  simp [BitVec.toNat_add]

/-- Where pc_increment ends, pc is advanced by 4 and nothing else changes (R164). -/
theorem pcIncrement_ok {s : State} (h : s.pcAdvances) : pcIncrement s = .ok { s with pc := s.pc + 4#32 } := by
  obtain ⟨hr, hp⟩ := h
  unfold pcIncrement
  rw [if_neg (not_not.2 hr)]
  by_cases hlt : s.pc.toNat + 4 < 2 ^ 32
  · rw [if_pos hlt]
  · rw [if_neg hlt]
    rw [hp.resolve_left hlt, pc_wrap]

/-- Everything a pc_increment that ends can have done (R164). -/
theorem pcIncrement_cases {s t : State} (h : pcIncrement s = .ok t) :
    s.pcAdvances ∧ t = { s with pc := s.pc + 4#32 } := by
  have ha : s.pcAdvances := by
    unfold pcIncrement at h
    split at h
    · simp at h
    · next hr =>
      refine ⟨not_not.1 hr, ?_⟩
      split at h
      · next hlt => exact .inl hlt
      · split at h
        · next hw => exact .inr hw
        · simp at h
  rw [pcIncrement_ok ha] at h
  exact ⟨ha, by simpa using h.symm⟩

/-- A write of a register other than x[0] ends (R161). -/
theorem writeReg_next {n : RegIndex} (v : Word) (s : State) (hn : n ≠ 0#8) (h : n.toNat < 32) :
    writeReg n v s = .ok { s with x := s.x.set n.toNat v, written := s.written.set n.toNat true } := by
  unfold writeReg; rw [dif_pos h, if_neg hn]

/-- What each register reads as after a write of another than x[0] (R160 and R161). -/
theorem readReg_set {n : RegIndex} (m : RegIndex) (v : Word) (s : State) (hn : n ≠ 0#8) (h : n.toNat < 32) :
    readReg m { s with x := s.x.set n.toNat v, written := s.written.set n.toNat true } =
      if m = n then .ok v else readReg m s := by
  unfold readReg
  by_cases hm : m = n
  · subst hm; rw [dif_pos h, if_neg hn]; simp
  · have : n.toNat ≠ m.toNat := fun e => hm (BitVec.eq_of_toNat_eq e.symm)
    simp only [hm, if_false]
    split
    · split
      · rfl
      · simp [this]
    · rfl

/-- A register read depends on the register file and on REG_INIT alone. -/
theorem readReg_congr {s t : State} (hx : t.x = s.x) (hw : t.written = s.written) (hc : t.cfg = s.cfg) (n : RegIndex) :
    readReg n t = readReg n s := by
  unfold readReg; simp only [hx, hw, hc]

/-- Why a register read faults (60_exceptions.md R204 and R208). -/
theorem readReg_fault {n : RegIndex} {s : State} {f : Fault} (h : readReg n s = .err f) :
    (f = .unwrittenRead ∧ s.cfg.regInit = .unwritten ∧ n ≠ 0#8 ∧ ∃ h : n.toNat < 32, s.written[n.toNat] = false) ∨
    (f = .regIndexOutOfRange ∧ 32 ≤ n.toNat) := by
  unfold readReg at h
  split at h
  · next hn =>
    split at h
    · cases h
    · next h0 =>
      split at h
      · next hc => cases h; exact .inl ⟨rfl, hc.1, h0, hn, hc.2⟩
      · cases h
  · cases h; exact .inr ⟨rfl, by omega⟩

/-- Why a register write faults (60_exceptions.md R208). -/
theorem writeReg_fault {n : RegIndex} {v : Word} {s : State} {f : Fault} (h : writeReg n v s = .err f) :
    f = .regIndexOutOfRange ∧ 32 ≤ n.toNat := by
  unfold writeReg at h
  split at h
  · split at h <;> cases h
  · cases h; exact ⟨rfl, by omega⟩

/-- A pc that may not be read is one nothing has written, under REG_INIT = unwritten (R162). -/
theorem not_pcReadable {s : State} : ¬ s.pcReadable ↔ s.cfg.regInit = .unwritten ∧ s.writtenPc = false := by
  cases hr : s.cfg.regInit <;> simp [State.pcReadable, hr]

/-- Why a pc read faults (60_exceptions.md R204). -/
theorem readPc_fault {s : State} {f : Fault} (h : readPc s = .err f) : f = .unwrittenRead ∧ ¬ s.pcReadable := by
  unfold readPc at h
  split at h
  · cases h
  · next hr => cases h; exact ⟨rfl, hr⟩

/-- Why pc_increment faults (60_exceptions.md R204 and R209). -/
theorem pcIncrement_fault {s : State} {f : Fault} (h : pcIncrement s = .err f) :
    (f = .unwrittenRead ∧ ¬ s.pcReadable) ∨
    (f = .pcOverflow ∧ s.pcReadable ∧ s.cfg.pcOverflow = .fault ∧ 2 ^ 32 ≤ s.pc.toNat + 4) := by
  unfold pcIncrement at h
  split at h
  · next hr => cases h; exact .inl ⟨rfl, hr⟩
  · next hr =>
    split at h
    · cases h
    · next hlt =>
      split at h
      · cases h
      · next hp => cases h; exact .inr ⟨rfl, not_not.1 hr, hp, by omega⟩

/-- Everything a creation that ends can have made (43_memory_ops.md R170, 70_reset_and_hazards.md R233). -/
theorem create_cases {cfg : Config} {n : Nat} {s : State} (h : create cfg n = .next s) :
    cfg.fmtTable.wf ∧ LengthOk n ∧ s = State.atCreation cfg n := by
  unfold create at h
  split at h
  · cases h
  · next ht =>
    split at h
    · cases h
    · next hl => cases h; exact ⟨not_not.1 ht, not_not.1 hl, rfl⟩

end Sys2Proof.Machine
end

