-- ==== Sys2Proof/Laws/Interface.lean ====
section
/-! SUPPORT. What a transaction can do, said once. -/

namespace Sys2Proof.Machine

/-- An access that is in bounds ends (20_memory.md R57). -/
theorem readMem_next {n : Nat} {a : Word} {s : State} (h : s.inBounds a n) : readMem n a s = .ok (s.mem.read a.toNat n) := by
  unfold readMem; rw [if_pos h]

/-- An access that is in bounds ends (20_memory.md R57). -/
theorem writeMem_next {n : Nat} {a : Word} (v : BitVec (8 * n)) {s : State} (h : s.inBounds a n) :
    writeMem n a v s = .ok { s with mem := s.mem.write a.toNat n v } := by
  unfold writeMem; rw [if_pos h]

/-- Where a memory read ends, it gives the bytes it covers (43_memory_ops.md R171 to R173). -/
theorem readMem_cases {n : Nat} {a : Word} {s : State} {v : BitVec (8 * n)} (h : readMem n a s = .ok v) :
    s.inBounds a n ∧ v = s.mem.read a.toNat n := by
  unfold readMem at h
  split at h
  · next hb => exact ⟨hb, by simpa using h.symm⟩
  · cases h

/-- Where a memory write ends, its bytes are written and nothing else changes (43_memory_ops.md R174 to R176). -/
theorem writeMem_cases {n : Nat} {a : Word} {v : BitVec (8 * n)} {s t : State} (h : writeMem n a v s = .ok t) :
    s.inBounds a n ∧ t = { s with mem := s.mem.write a.toNat n v } := by
  unfold writeMem at h
  split at h
  · next hb => exact ⟨hb, by simpa using h.symm⟩
  · simp at h

/-- Everything a transaction that answers can have done: it leaves the state as it was, or it is a register write, a pc
write, a pc_increment or a memory write and has exactly that effect. -/
theorem perform_cases {t : Transaction} {s u : State} {r : Reply} (h : perform t s = .next (u, r)) :
    u = s ∨
    (∃ n v, ∃ hn : n.toNat < 32, t = .regWrite n v ∧ n ≠ 0#8 ∧ r = .done ∧
      u = { s with x := s.x.set n.toNat v, written := s.written.set n.toNat true }) ∨
    (∃ v, t = .pcWrite v ∧ r = .done ∧ u = writePc v s) ∨
    (t = .pcIncrement ∧ r = .done ∧ s.pcAdvances ∧ u = { s with pc := s.pc + 4#32 }) ∨
    (∃ a v, t = .writeU8 a v ∧ r = .done ∧ s.inBounds a 1 ∧ u = { s with mem := s.mem.write a.toNat 1 v }) ∨
    (∃ a v, t = .writeU16 a v ∧ r = .done ∧ s.inBounds a 2 ∧ u = { s with mem := s.mem.write a.toNat 2 v }) ∨
    (∃ a v, t = .writeU32 a v ∧ r = .done ∧ s.inBounds a 4 ∧ u = { s with mem := s.mem.write a.toNat 4 v }) := by
  cases t with
  | decode w =>
    left
    simp only [perform, answerDecode] at h
    split at h <;> (injection h with h; exact (Prod.mk.inj h).1.symm)
  | instrOpcode i => left; injection h with h; exact (Prod.mk.inj h).1.symm
  | instrFormat i => left; injection h with h; exact (Prod.mk.inj h).1.symm
  | extractOpcode w => left; injection h with h; exact (Prod.mk.inj h).1.symm
  | instrField i f =>
    left
    simp only [perform, answerField] at h
    split at h
    · injection h with h; exact (Prod.mk.inj h).1.symm
    · cases h
  | extractField k f w =>
    left
    simp only [perform, answerField] at h
    split at h
    · injection h with h; exact (Prod.mk.inj h).1.symm
    · cases h
  | regRead n =>
    left
    simp only [perform, answerRead] at h
    split at h
    · injection h with h; exact (Prod.mk.inj h).1.symm
    · cases h
  | pcRead =>
    left
    simp only [perform, answerRead] at h
    split at h
    · injection h with h; exact (Prod.mk.inj h).1.symm
    · cases h
  | regWrite n v =>
    simp only [perform, answerUpdate] at h
    split at h
    · next t ht =>
      injection h with h
      obtain ⟨rfl, rfl⟩ := Prod.mk.inj h
      rcases writeReg_cases ht with ⟨-, rfl⟩ | ⟨hn, hlt, rfl⟩
      · exact .inl rfl
      · exact .inr (.inl ⟨n, v, hlt, rfl, hn, rfl, rfl⟩)
    · cases h
  | pcWrite v =>
    injection h with h
    obtain ⟨rfl, rfl⟩ := Prod.mk.inj h
    exact .inr (.inr (.inl ⟨v, rfl, rfl, rfl⟩))
  | pcIncrement =>
    simp only [perform, answerUpdate] at h
    split at h
    · next t ht =>
      injection h with h
      obtain ⟨rfl, rfl⟩ := Prod.mk.inj h
      obtain ⟨ha, rfl⟩ := pcIncrement_cases ht
      exact .inr (.inr (.inr (.inl ⟨rfl, rfl, ha, rfl⟩)))
    · cases h
  | fsrRead => cases h
  | fsrWrite v => cases h
  | readU8 a =>
    left
    simp only [perform, answerValue] at h
    split at h <;> (injection h with h; exact (Prod.mk.inj h).1.symm)
  | readU16 a =>
    left
    simp only [perform, answerValue] at h
    split at h <;> (injection h with h; exact (Prod.mk.inj h).1.symm)
  | readU32 a =>
    left
    simp only [perform, answerValue] at h
    split at h <;> (injection h with h; exact (Prod.mk.inj h).1.symm)
  | writeU8 a v =>
    simp only [perform, answerWrite] at h
    split at h <;> (injection h with h; obtain ⟨rfl, rfl⟩ := Prod.mk.inj h)
    · next ht => obtain ⟨hb, rfl⟩ := writeMem_cases ht; simp_all
    · exact .inl rfl
  | writeU16 a v =>
    simp only [perform, answerWrite] at h
    split at h <;> (injection h with h; obtain ⟨rfl, rfl⟩ := Prod.mk.inj h)
    · next ht => obtain ⟨hb, rfl⟩ := writeMem_cases ht; simp_all
    · exact .inl rfl
  | writeU32 a v =>
    simp only [perform, answerWrite] at h
    split at h <;> (injection h with h; obtain ⟨rfl, rfl⟩ := Prod.mk.inj h)
    · next ht => obtain ⟨hb, rfl⟩ := writeMem_cases ht; simp_all
    · exact .inl rfl

/-- Why a transaction faults (60_exceptions.md R200 and R206). -/
theorem perform_fault {t : Transaction} {s : State} {f : Fault} (h : perform t s = .fault f) :
    (f = .unwrittenRead ∧ s.cfg.regInit = .unwritten ∧
      ∃ n, n ≠ 0#8 ∧ t = .regRead n ∧ ∃ h : n.toNat < 32, s.written[n.toNat] = false) ∨
    (f = .unwrittenRead ∧ ¬ s.pcReadable ∧ (t = .pcRead ∨ t = .pcIncrement)) ∨
    (f = .pcOverflow ∧ s.pcReadable ∧ s.cfg.pcOverflow = .fault ∧ 2 ^ 32 ≤ s.pc.toNat + 4 ∧ t = .pcIncrement) ∨
    (f = .regIndexOutOfRange ∧ ∃ n, 32 ≤ n.toNat ∧ (t = .regRead n ∨ ∃ v, t = .regWrite n v)) := by
  cases t <;> simp only [perform, answerDecode, answerField, answerFsrRead, answerFsrWrite, readFsr, writeFsr] at h
  case regRead n =>
    unfold answerRead at h
    split at h
    · cases h
    · next g hg =>
      cases h
      rcases readReg_fault hg with ⟨h, hi, h0, hw⟩ | ⟨h, hn⟩
      · exact .inl ⟨h, hi, n, h0, rfl, hw⟩
      · exact .inr (.inr (.inr ⟨h, n, hn, .inl rfl⟩))
  case regWrite n v =>
    unfold answerUpdate at h
    split at h
    · cases h
    · next g hg => cases h; exact .inr (.inr (.inr ⟨(writeReg_fault hg).1, n, (writeReg_fault hg).2, .inr ⟨v, rfl⟩⟩))
  case pcRead =>
    unfold answerRead at h
    split at h
    · cases h
    · next g hg => cases h; exact .inr (.inl ⟨(readPc_fault hg).1, (readPc_fault hg).2, .inl rfl⟩)
  case pcIncrement =>
    unfold answerUpdate at h
    split at h
    · cases h
    · next g hg =>
      cases h
      rcases pcIncrement_fault hg with ⟨h, hr⟩ | ⟨h, hr, hp, hs⟩
      · exact .inr (.inl ⟨h, hr, .inr rfl⟩)
      · exact .inr (.inr (.inl ⟨h, hr, hp, hs, rfl⟩))
  all_goals (try cases h)
  all_goals (try unfold answerValue at h)
  all_goals (try unfold answerWrite at h)
  all_goals (split at h <;> cases h)

end Sys2Proof.Machine
end

