-- ==== Sys2Proof/Laws/PerInstr.lean ====
section
/-! SUPPORT. A fact of each instruction as syntax: its word carries its row's opcode, whose low bits are 11, so the length
check lets it pass (41_decoder.md R131). -/

namespace Sys2Proof.Laws

/-- The word of an instruction has its row's opcode and passes the length check. -/
def Encoding.Statement (i : Instr) : Prop := opcodeOf (encode i) = i.opcode ∧ i.opcode.extractLsb' 0 2 = 0b11#2

theorem Encoding.load (rd rs1 : RegField) (imm : BitVec 12) (funct3 : BitVec 3) :
    Encoding.Statement (.load rd rs1 imm funct3) := ⟨opcodeOf_encodeI .., (by decide : opcLoad.extractLsb' 0 2 = 0b11#2)⟩
theorem Encoding.opImm (rd rs1 : RegField) (imm : BitVec 12) (funct3 : BitVec 3) :
    Encoding.Statement (.opImm rd rs1 imm funct3) := ⟨opcodeOf_encodeI .., (by decide : opcOpImm.extractLsb' 0 2 = 0b11#2)⟩
theorem Encoding.auipc (rd : RegField) (imm : BitVec 20) :
    Encoding.Statement (.auipc rd imm) := ⟨opcodeOf_encodeL .., (by decide : opcAuipc.extractLsb' 0 2 = 0b11#2)⟩
theorem Encoding.store (rs1 rs2 : RegField) (imm : BitVec 12) (funct3 : BitVec 3) :
    Encoding.Statement (.store rs1 rs2 imm funct3) := ⟨opcodeOf_encodeB .., (by decide : opcStore.extractLsb' 0 2 = 0b11#2)⟩
theorem Encoding.op (rd rs1 rs2 : RegField) (funct10 : BitVec 10) :
    Encoding.Statement (.op rd rs1 rs2 funct10) := ⟨opcodeOf_encodeR .., (by decide : opcOp.extractLsb' 0 2 = 0b11#2)⟩
theorem Encoding.lui (rd : RegField) (imm : BitVec 20) :
    Encoding.Statement (.lui rd imm) := ⟨opcodeOf_encodeL .., (by decide : opcLui.extractLsb' 0 2 = 0b11#2)⟩
theorem Encoding.branch (rs1 rs2 : RegField) (imm : BitVec 12) (funct3 : BitVec 3) :
    Encoding.Statement (.branch rs1 rs2 imm funct3) := ⟨opcodeOf_encodeB .., (by decide : opcBranch.extractLsb' 0 2 = 0b11#2)⟩
theorem Encoding.jalr (rd rs1 : RegField) (imm : BitVec 12) (funct3 : BitVec 3) :
    Encoding.Statement (.jalr rd rs1 imm funct3) := ⟨opcodeOf_encodeI .., (by decide : opcJalr.extractLsb' 0 2 = 0b11#2)⟩
theorem Encoding.jal (offset : BitVec 25) : Encoding.Statement (.jal offset) := ⟨opcodeOf_encodeJ .., (by decide : opcJal.extractLsb' 0 2 = 0b11#2)⟩
theorem Encoding.system (rd rs1 : RegField) (imm : BitVec 12) (funct3 : BitVec 3) :
    Encoding.Statement (.system rd rs1 imm funct3) := ⟨opcodeOf_encodeI .., (by decide : opcSystem.extractLsb' 0 2 = 0b11#2)⟩

/-- The fact for every instruction. -/
theorem encoding_statement (i : Instr) : Encoding.Statement i := by
  cases i with
  | load => exact Encoding.load ..
  | opImm => exact Encoding.opImm ..
  | auipc => exact Encoding.auipc ..
  | store => exact Encoding.store ..
  | op => exact Encoding.op ..
  | lui => exact Encoding.lui ..
  | branch => exact Encoding.branch ..
  | jalr => exact Encoding.jalr ..
  | jal => exact Encoding.jal ..
  | system => exact Encoding.system ..

end Sys2Proof.Laws
end

