-- ==== Sys2Proof/Laws/State.lean ====
section
/-! SUPPORT. One lemma per field for each update of a state that has a name, so that no proof unfolds a record update. -/

namespace Sys2Proof.Machine

/-! State.reply. -/

@[simp] theorem State.reply_cfg (s : State) (r : Reply) : (s.reply r).cfg = s.cfg := rfl
@[simp] theorem State.reply_memLen (s : State) (r : Reply) : (s.reply r).memLen = s.memLen := rfl
@[simp] theorem State.reply_mem (s : State) (r : Reply) : (s.reply r).mem = s.mem := rfl
@[simp] theorem State.reply_x (s : State) (r : Reply) : (s.reply r).x = s.x := rfl
@[simp] theorem State.reply_written (s : State) (r : Reply) : (s.reply r).written = s.written := rfl
@[simp] theorem State.reply_pc (s : State) (r : Reply) : (s.reply r).pc = s.pc := rfl
@[simp] theorem State.reply_writtenPc (s : State) (r : Reply) : (s.reply r).writtenPc = s.writtenPc := rfl
@[simp] theorem State.reply_fsr (s : State) (r : Reply) : (s.reply r).fsr = s.fsr := rfl
@[simp] theorem State.reply_script (s : State) (r : Reply) : (s.reply r).script = s.script := rfl
@[simp] theorem State.reply_replies (s : State) (r : Reply) : (s.reply r).replies = r :: s.replies := rfl
@[simp] theorem State.reply_ended (s : State) (r : Reply) : (s.reply r).ended = s.ended := rfl

/-! writePc. -/

@[simp] theorem writePc_cfg (v : Word) (s : State) : (writePc v s).cfg = s.cfg := rfl
@[simp] theorem writePc_memLen (v : Word) (s : State) : (writePc v s).memLen = s.memLen := rfl
@[simp] theorem writePc_mem (v : Word) (s : State) : (writePc v s).mem = s.mem := rfl
@[simp] theorem writePc_x (v : Word) (s : State) : (writePc v s).x = s.x := rfl
@[simp] theorem writePc_written (v : Word) (s : State) : (writePc v s).written = s.written := rfl
@[simp] theorem writePc_pc (v : Word) (s : State) : (writePc v s).pc = v := rfl
@[simp] theorem writePc_writtenPc (v : Word) (s : State) : (writePc v s).writtenPc = true := rfl
@[simp] theorem writePc_fsr (v : Word) (s : State) : (writePc v s).fsr = s.fsr := rfl
@[simp] theorem writePc_script (v : Word) (s : State) : (writePc v s).script = s.script := rfl
@[simp] theorem writePc_replies (v : Word) (s : State) : (writePc v s).replies = s.replies := rfl
@[simp] theorem writePc_ended (v : Word) (s : State) : (writePc v s).ended = s.ended := rfl

/-! State.atCreation. -/

@[simp] theorem State.atCreation_cfg (cfg : Config) (n : Nat) : (State.atCreation cfg n).cfg = cfg := rfl
@[simp] theorem State.atCreation_memLen (cfg : Config) (n : Nat) : (State.atCreation cfg n).memLen = n := rfl
@[simp] theorem State.atCreation_mem (cfg : Config) (n : Nat) : (State.atCreation cfg n).mem = [] := rfl
@[simp] theorem State.atCreation_x (cfg : Config) (n : Nat) : (State.atCreation cfg n).x = Vector.replicate 32 0#32 := rfl
@[simp] theorem State.atCreation_written (cfg : Config) (n : Nat) : (State.atCreation cfg n).written = Vector.replicate 32 false := rfl
@[simp] theorem State.atCreation_pc (cfg : Config) (n : Nat) : (State.atCreation cfg n).pc = 0#32 := rfl
@[simp] theorem State.atCreation_writtenPc (cfg : Config) (n : Nat) : (State.atCreation cfg n).writtenPc = false := rfl
@[simp] theorem State.atCreation_fsr (cfg : Config) (n : Nat) : (State.atCreation cfg n).fsr = 0#32 := rfl
@[simp] theorem State.atCreation_script (cfg : Config) (n : Nat) : (State.atCreation cfg n).script = [] := rfl
@[simp] theorem State.atCreation_replies (cfg : Config) (n : Nat) : (State.atCreation cfg n).replies = [] := rfl
@[simp] theorem State.atCreation_ended (cfg : Config) (n : Nat) : (State.atCreation cfg n).ended = none := rfl

/-! State.endRun. -/

@[simp] theorem State.endRun_cfg (s : State) (e : ReturnedError) : (s.endRun e).cfg = s.cfg := rfl
@[simp] theorem State.endRun_memLen (s : State) (e : ReturnedError) : (s.endRun e).memLen = s.memLen := rfl
@[simp] theorem State.endRun_mem (s : State) (e : ReturnedError) : (s.endRun e).mem = s.mem := rfl
@[simp] theorem State.endRun_x (s : State) (e : ReturnedError) : (s.endRun e).x = s.x := rfl
@[simp] theorem State.endRun_written (s : State) (e : ReturnedError) : (s.endRun e).written = s.written := rfl
@[simp] theorem State.endRun_pc (s : State) (e : ReturnedError) : (s.endRun e).pc = s.pc := rfl
@[simp] theorem State.endRun_writtenPc (s : State) (e : ReturnedError) : (s.endRun e).writtenPc = s.writtenPc := rfl
@[simp] theorem State.endRun_fsr (s : State) (e : ReturnedError) : (s.endRun e).fsr = s.fsr := rfl
@[simp] theorem State.endRun_script (s : State) (e : ReturnedError) : (s.endRun e).script = s.script := rfl
@[simp] theorem State.endRun_replies (s : State) (e : ReturnedError) : (s.endRun e).replies = .err e :: s.replies := rfl
@[simp] theorem State.endRun_ended (s : State) (e : ReturnedError) : (s.endRun e).ended = some e := rfl

/-! State.withFetchWord. -/

@[simp] theorem State.withFetchWord_cfg (s : State) (nbits w : Nat) :
    (s.withFetchWord nbits w).cfg = s.cfg := rfl
@[simp] theorem State.withFetchWord_memLen (s : State) (nbits w : Nat) :
    (s.withFetchWord nbits w).memLen = max s.memLen (fetchPlace s + 4) := rfl
@[simp] theorem State.withFetchWord_mem (s : State) (nbits w : Nat) :
    (s.withFetchWord nbits w).mem = s.mem.write (fetchPlace s) 4 (tableWord nbits w) := rfl
@[simp] theorem State.withFetchWord_x (s : State) (nbits w : Nat) :
    (s.withFetchWord nbits w).x = s.x := rfl
@[simp] theorem State.withFetchWord_written (s : State) (nbits w : Nat) :
    (s.withFetchWord nbits w).written = s.written := rfl
@[simp] theorem State.withFetchWord_pc (s : State) (nbits w : Nat) :
    (s.withFetchWord nbits w).pc = BitVec.ofNat 32 (fetchPlace s) := rfl
@[simp] theorem State.withFetchWord_writtenPc (s : State) (nbits w : Nat) :
    (s.withFetchWord nbits w).writtenPc = (s.writtenPc || decide (s.cfg.regInit = .unwritten)) := rfl
@[simp] theorem State.withFetchWord_fsr (s : State) (nbits w : Nat) :
    (s.withFetchWord nbits w).fsr = s.fsr := rfl
@[simp] theorem State.withFetchWord_script (s : State) (nbits w : Nat) :
    (s.withFetchWord nbits w).script = [] := rfl
@[simp] theorem State.withFetchWord_replies (s : State) (nbits w : Nat) :
    (s.withFetchWord nbits w).replies = s.replies := rfl
@[simp] theorem State.withFetchWord_ended (s : State) (nbits w : Nat) :
    (s.withFetchWord nbits w).ended = none := rfl

end Sys2Proof.Machine
end

