-- ==== Sys2Proof/Laws/Step.lean ====
section
/-! SUPPORT. What an instruction, a pass of the reference loop and a step can do, said once. -/

namespace Sys2Proof.Machine

/-- Every instruction hands its Instruction over and advances pc (41_decoder.md section 4, 70_reset_and_hazards.md R234). -/
theorem exec_eq_handOver (i : Instr) (s : State) : exec i s = handOver (instructionOf i) s := by
  cases i <;> rfl

/-- Where pc can be advanced, handing over ends. -/
theorem handOver_next {i : Instruction} {s : State} (h : s.pcAdvances) :
    handOver i s = .next ({ s with pc := s.pc + 4#32 }.reply (.instruction i)) := by
  unfold handOver; rw [pcIncrement_ok h]

/-- Everything a hand-over that ends can have done. -/
theorem handOver_cases {i : Instruction} {s t : State} (h : handOver i s = .next t) :
    s.pcAdvances ∧ t = { s with pc := s.pc + 4#32 }.reply (.instruction i) := by
  unfold handOver at h
  split at h
  · next u hu =>
    obtain ⟨ha, rfl⟩ := pcIncrement_cases hu
    injection h with h
    exact ⟨ha, h.symm⟩
  · cases h

/-- Everything a fetch can answer (20_memory.md R65). -/
theorem fetch_cases (s : State) :
    (¬ s.pcReadable ∧ fetch s = .err .unwrittenRead) ∨
    (s.pcReadable ∧ s.inBounds s.pc 4 ∧ fetch s = .ok (.ok (s.mem.read s.pc.toNat 4))) ∨
    (s.pcReadable ∧ ¬ s.inBounds s.pc 4 ∧ fetch s = .ok (.err .outOfBounds)) := by
  unfold fetch readPc readU32 readMem
  by_cases hr : s.pcReadable
  · rw [if_pos hr]
    dsimp only
    by_cases hb : s.inBounds s.pc 4
    · exact .inr (.inl ⟨hr, hb, by rw [if_pos hb]⟩)
    · exact .inr (.inr ⟨hr, hb, by rw [if_neg hb]⟩)
  · exact .inl ⟨hr, by rw [if_neg hr]⟩

/-- A fetch where pc may be read and its four bytes are in memory (20_memory.md R65). -/
theorem fetch_next {s : State} (hr : s.pcReadable) (hb : s.inBounds s.pc 4) :
    fetch s = .ok (.ok (s.mem.read s.pc.toNat 4)) := by
  rcases fetch_cases s with ⟨h, -⟩ | ⟨-, -, h⟩ | ⟨-, h, -⟩
  · exact absurd hr h
  · exact h
  · exact absurd hb h

/-- Everything a pass of the reference loop that answers can have done: pc advanced and an Instruction handed over, or the
run ended with a returned error. -/
theorem loopOnce_cases {s t : State} (h : loopOnce s = .next t) :
    (∃ i, s.pcAdvances ∧ t = { s with pc := s.pc + 4#32 }.reply (.instruction i)) ∨ ∃ e, t = s.endRun e := by
  unfold loopOnce at h
  split at h
  · cases h
  · next e _ => injection h with h; exact .inr ⟨e, h.symm⟩
  · split at h
    · next e _ => injection h with h; exact .inr ⟨.decode e, h.symm⟩
    · unfold execInstruction at h
      split at h
      · rw [exec_eq_handOver] at h
        exact .inl ⟨_, handOver_cases h⟩
      · exact .inl ⟨_, handOver_cases h⟩

/-- Why a pass of the reference loop faults (60_exceptions.md R200 and R206): pc is read before anything wrote it, or its
sum leaves 32 bits. A returned error is no fault (R205). -/
theorem loopOnce_fault {s : State} {f : Fault} (h : loopOnce s = .fault f) :
    (f = .unwrittenRead ∧ ¬ s.pcReadable) ∨
    (f = .pcOverflow ∧ s.pcReadable ∧ s.cfg.pcOverflow = .fault ∧ 2 ^ 32 ≤ s.pc.toNat + 4) := by
  have handed (i : Instruction) (h : handOver i s = .fault f) : pcIncrement s = .err f := by
    unfold handOver at h
    split at h
    · cases h
    · next g hg => cases h; exact hg
  unfold loopOnce at h
  split at h
  · next g hg =>
    cases h
    rcases fetch_cases s with ⟨hr, e⟩ | ⟨-, -, e⟩ | ⟨-, -, e⟩ <;> rw [e] at hg <;> cases hg
    exact .inl ⟨rfl, hr⟩
  · cases h
  · split at h
    · cases h
    · unfold execInstruction at h
      split at h
      · rw [exec_eq_handOver] at h; exact pcIncrement_fault (handed _ h)
      · exact pcIncrement_fault (handed _ h)

/-- A pass of the reference loop is never refused. -/
theorem loopOnce_not_refused {s : State} {r : Refusal} : loopOnce s ≠ .refused r := by
  have handed (i : Instruction) : handOver i s ≠ .refused r := by
    unfold handOver; split <;> simp
  intro h
  unfold loopOnce at h
  split at h
  · cases h
  · cases h
  · split at h
    · cases h
    · unfold execInstruction at h
      split at h
      · rw [exec_eq_handOver] at h; exact handed _ h
      · exact handed _ h

/-- Everything a step that answers can have done: the next transaction of the script with its reply; or, where none waits,
nothing after the end of a run, pc advanced and an Instruction handed over, or the run ended. -/
theorem step_cases {s t : State} (h : step s = .next t) :
    (∃ tr rest u r, s.script = tr :: rest ∧ perform tr { s with script := rest, ended := none } = .next (u, r) ∧
      t = u.reply r) ∨
    (s.script = [] ∧ s.ended ≠ none ∧ t = s) ∨
    (s.script = [] ∧ s.ended = none ∧ ∃ i, s.pcAdvances ∧ t = { s with pc := s.pc + 4#32 }.reply (.instruction i)) ∨
    (s.script = [] ∧ s.ended = none ∧ ∃ e, t = s.endRun e) := by
  unfold step at h
  split at h
  · next tr rest hs =>
    unfold issue at h
    split at h
    · next u r hp =>
      injection h with h
      exact .inl ⟨tr, rest, u, r, hs, hp, h.symm⟩
    · cases h
    · cases h
  · next hs =>
    split at h
    · next e he => injection h with h; exact .inr (.inl ⟨hs, by simp [he], h.symm⟩)
    · next he => exact .inr (.inr ((loopOnce_cases h).imp (⟨hs, he, ·⟩) (⟨hs, he, ·⟩)))

end Sys2Proof.Machine
end

