-- ==== Sys2Proof/Tests/Slice0.lean ====
section
/-! SUPPORT. The model's tests and the witnesses of the statements' hypotheses. Every expected value is the spec's: a test
names the vector of 95_test_vectors.md or the rule its value comes from. -/

namespace Sys2Proof.Tests

open Sys2Proof.Machine

/-! Helpers. -/

/-- The spec's default parameters with another table, another PC_OVERFLOW or another REG_INIT. -/
def ext : Config := { defaultConfig with fmtTable := rv32iExtended }
def wrapping : Config := { defaultConfig with pcOverflow := .wrap }
def zeroed : Config := { defaultConfig with regInit := .zero }

/-- A machine just created whose caller has transactions waiting. -/
def machine (cfg : Config) (n : Nat) (ts : List Transaction) : State := { State.atCreation cfg n with script := ts }

/-- A machine just created whose pc has been written. -/
def machineAt (cfg : Config) (n : Nat) (p : Word) : State := { State.atCreation cfg n with pc := p, writtenPc := true }

/-- V52's memory: 44 33 22 11 from address 0 on, eight bytes long. -/
def v52 : State := { machine defaultConfig 8 [] with mem := [(0, 0x44), (1, 0x33), (2, 0x22), (3, 0x11)] }

/-- The state after an outcome. -/
def nextOf (o : Host.Outcome State Fault Refusal) : Option State :=
  match o with
  | .next s => some s
  | _ => none

/-- What a transaction replies. -/
def replyOf (a : Answer) : Option Reply :=
  match a with
  | .next (_, r) => some r
  | _ => none

/-- The memory after a transaction. -/
def memAfter (a : Answer) : Option Memory :=
  match a with
  | .next (s, _) => some s.mem
  | _ => none

/-- The pc after a transaction. -/
def pcAfter (a : Answer) : Option Word :=
  match a with
  | .next (s, _) => some s.pc
  | _ => none

/-- The fault a transaction ends in. -/
def faultOf (a : Answer) : Option Fault :=
  match a with
  | .fault f => some f
  | _ => none

/-- One instruction of the table run as the first one after reset: pc after it, and the Instruction handed over. -/
def firstPass (w : Nat) : Option (Word × Option Reply) :=
  (nextOf (step (State.reset.withFetchWord 32 w))).map fun s => (s.pc, s.replies.head?)

/-- A decoded Instruction, as the vectors write it. -/
def okWord (w : Word) (k : FormatKind) : Result DecodeError Instruction := .ok (Instruction.ofWord w k)

/-! WellFormed: ill-formed terms are refused. -/

theorem test_unreachable_entry_is_ill_formed : ¬ FmtTable.reachable [(0b0000011, .I), (0b0010010, .I)] := by decide
theorem test_two_entries_for_one_opcode_are_ill_formed : ¬ FmtTable.functional [(opcLoad, .I), (opcLoad, .L)] := by decide
theorem test_malformed_table_is_ill_formed : ¬ FmtTable.wf [(0b0000000, .R)] := by decide
theorem test_both_tables_are_well_formed : FmtTable.wf yarvisObserved ∧ FmtTable.wf rv32iExtended := by decide
theorem test_length_past_the_address_space_is_refused : LengthOk (2 ^ 32) ∧ ¬ LengthOk (2 ^ 32 + 1) := by decide
theorem test_opImm_is_ill_formed_under_the_default_table :
    ¬ Instr.wf yarvisObserved (.opImm 0 0 0 0) ∧ Instr.wf rv32iExtended (.opImm 0 0 0 0) := by decide
theorem test_load_in_another_format_is_ill_formed : ¬ Instr.wf [(opcLoad, .L)] (.load 0 0 0 0) := by decide
theorem test_unsorted_memory_is_ill_formed :
    ¬ Memory.wf [(1, 1), (0, 1)] ∧ ¬ Memory.wf [(0, 1), (0, 1)] ∧ ¬ Memory.wf [(0, 0)] := by decide
theorem test_create_refuses_a_malformed_table :
    create { defaultConfig with fmtTable := [(0b0000000, .R)] } 8 = .refused .malformedTable := rfl
theorem test_create_refuses_a_long_memory : create defaultConfig (2 ^ 32 + 1) = .refused .memoryTooLong := rfl

/-! Format extraction (V1 to V4, V11 to V19). -/

theorem test_V1_format_R : let w : Word := 0b10101010101100111001100110000000
    Formats.R.rd w = 0b10101 ∧ Formats.R.rs1 w = 0b01010 ∧ Formats.R.rs2 w = 0b11001 ∧ Formats.R.funct10 w = 0b1100110011 := by
  decide
theorem test_V2_format_I : let w : Word := 0b10101010101100111011100110000000
    Formats.I.rd w = 0b10101 ∧ Formats.I.rs1 w = 0b01010 ∧ Formats.I.imm w = 0b110011101110 ∧ Formats.I.funct3 w = 0b011 := by
  decide
theorem test_V3_format_B : let w : Word := 0b10101010101100111011100110000000
    Formats.B.rs1 w = 0b01010 ∧ Formats.B.rs2 w = 0b11001 ∧ Formats.B.imm w = 0b101011101110 ∧ Formats.B.funct3 w = 0b011 := by
  decide
theorem test_V4_format_J : Formats.J.offset 0b10101010101100111011100110000000 = 0b1010101010110011101110011 := by decide
theorem test_V12_every_field_at_its_maximum : let w : Word := 0xFFFFFFFF
    Formats.R.funct10 w = 0x3FF ∧ Formats.R4.funct5 w = 0x1F ∧ Formats.I.imm w = 0xFFF ∧ Formats.B.imm w = 0xFFF ∧
      Formats.L.imm w = 0xFFFFF ∧ Formats.J.offset w = 0x1FFFFFF := by decide
theorem test_V14_word_W2_in_R4_and_L : let w : Word := 0xAAB3B980
    Formats.R4.rd w = 0x15 ∧ Formats.R4.rs1 w = 0x0A ∧ Formats.R4.rs2 w = 0x19 ∧ Formats.R4.rs3 w = 0x1B ∧
      Formats.R4.funct5 w = 0x13 ∧ Formats.L.rd w = 0x15 ∧ Formats.L.imm w = 0x56773 := by decide
theorem test_V15_word_W3 : let w : Word := 0x12345677
    Formats.R.funct10 w = 0x0AC ∧ Formats.R4.rs3 w = 0x05 ∧ Formats.R4.funct5 w = 0x0C ∧ Formats.I.imm w = 0xD15 ∧
      Formats.B.imm w = 0x115 ∧ Formats.L.imm w = 0x468AC ∧ Formats.J.offset w = 0x2468AC := by decide
theorem test_V17_V18_halves_of_the_B_immediate :
    Formats.B.imm 0xF8000000 = 0xF80 ∧ Formats.B.imm 0x0001FC00 = 0x07F := by decide
/-- 10_state.md R31. -/
theorem test_format_codes : [FormatKind.R, .R4, .I, .B, .L, .J].map FormatKind.code = [0, 1, 2, 3, 4, 5] := by decide

/-! Decoding: for each constructor a word written out from its row's match and its format's layout, highest field first. -/

theorem test_decode_load :
    decodeTableWord 32 0b10101_01010_110011101110_011_0000011 = some (.load 21 10 0xCEE 3) := by decide
theorem test_decode_opImm :
    decodeTableWord 32 0b00001_00010_100000000001_101_0010011 = some (.opImm 1 2 0x801 5) := by decide
theorem test_decode_auipc : decodeTableWord 32 0b11111_11111111111111111111_0010111 = some (.auipc 31 0xFFFFF) := by decide
theorem test_decode_store :
    decodeTableWord 32 0b10000_00011_00100_0000001_010_0100011 = some (.store 3 4 0x801 2) := by decide
theorem test_decode_op : decodeTableWord 32 0b10101_01010_11001_1100110011_0110011 = some (.op 21 10 25 0x333) := by decide
theorem test_decode_lui : decodeTableWord 32 0b00010_01000110100010101100_0110111 = some (.lui 2 0x468AC) := by decide
theorem test_decode_branch :
    decodeTableWord 32 0b10101_01010_11001_1101110_011_1100011 = some (.branch 10 25 0xAEE 3) := by decide
theorem test_decode_jalr :
    decodeTableWord 32 0b00110_00111_011111111110_001_1100111 = some (.jalr 6 7 0x7FE 1) := by decide
theorem test_decode_jal : decodeTableWord 32 0b1010101010110011101110011_1101111 = some (.jal 0x1556773) := by decide
theorem test_decode_system :
    decodeTableWord 32 0b01000_01001_001100000010_110_1110011 = some (.system 8 9 0x302 6) := by decide
/-- A row of the table by itself: match with every operand bit 0. -/
theorem test_decode_a_row_of_seven_bits : decodeTableWord 7 0x33 = some (.op 0 0 0 0) := by decide

/-- V26 to V28, under the default table. -/
theorem test_V26_V28_load_words :
    decodeWord yarvisObserved 0x00000003 = okWord 0x00000003 .I ∧ decodeWord yarvisObserved 0x80000003 = okWord 0x80000003 .I ∧
      decodeWord yarvisObserved 0xAAB3B983 = okWord 0xAAB3B983 .I := by decide
/-- V21 to V25, V40 and V70. -/
theorem test_V21_V25_V40_V70_unsupported :
    let ws := [0x00000000, 0x00000001, 0x00000002, 0xFFFFFFFC, 0xFFFFFFFE, 0xAAB39980, 0xAAB3B980, 0x0000007C]
    ws.map (decodeWord yarvisObserved) = List.replicate 8 (.err .unsupportedEncoding) ∧
      ws.map (decodeWord rv32iExtended) = List.replicate 8 (.err .unsupportedEncoding) := by decide
/-- V29, V31 and V32, under both tables. -/
theorem test_V29_V31_V32_unknown :
    let ws := [0xFFFFFFFF, 0x0000000F, 0x0000001F, 0x0000000B, 0x00000043]
    ws.map (decodeWord yarvisObserved) = List.replicate 5 (.err .unknownOpcode) ∧
      ws.map (decodeWord rv32iExtended) = List.replicate 5 (.err .unknownOpcode) := by decide
/-- V30 and V34 to V39: the extended rows are unknown under the default table. -/
theorem test_V30_V39_default_table_rejects :
    [0x00000013, 0xFFFFFF97, 0x00000023, 0xAAB3B9E3, 0xAAB399B3, 0x12345637, 0x00000067, 0xAAB3B9EF, 0x00000073].map
      (decodeWord yarvisObserved) = List.replicate 9 (.err .unknownOpcode) := by decide
/-- V30, V34 to V39, [ext]: the formats. -/
theorem test_V30_V39_extended_table_formats : ∀ p ∈ [(0x00000013#32, FormatKind.I), (0xFFFFFF97, .L), (0x00000023, .B),
    (0xAAB3B9E3, .B), (0xAAB399B3, .R), (0x12345637, .L), (0x00000067, .I), (0xAAB3B9EF, .J), (0x00000073, .I)],
    decodeWord rv32iExtended p.1 = okWord p.1 p.2 := by decide
theorem test_decodeBytes_rejects_by_name :
    decodeBytes rv32iExtended [0x03, 0, 0] = .err .truncated ∧
      decodeBytes rv32iExtended [0, 0, 0, 0] = .err (.malformed .unsupportedEncoding) ∧
      decodeBytes [(opcLoad, .L)] [0x03, 0, 0, 0] = .err (.unlisted (Instruction.ofWord 0x03 .L)) := by decide
/-- P2's image: the bytes of 0xAAB3B983 in the order memory holds them. -/
theorem test_bytes_of_a_word : bytesOfWord 0xAAB3B983 = [0x83, 0xB9, 0xB3, 0xAA] := by decide

/-! One step of each instruction, the first after reset: pc goes from 0 to 4 and the Instruction is handed over (V26 to V39
under [ext], 70_reset_and_hazards.md R234). -/

theorem test_step_load : firstPass 0xAAB3B983 = some (4, some (.instruction (Instruction.ofWord 0xAAB3B983 .I))) := by decide
theorem test_step_opImm : firstPass 0x00000013 = some (4, some (.instruction (Instruction.ofWord 0x00000013 .I))) := by decide
theorem test_step_auipc : firstPass 0xFFFFFF97 = some (4, some (.instruction (Instruction.ofWord 0xFFFFFF97 .L))) := by decide
theorem test_step_store : firstPass 0x00000023 = some (4, some (.instruction (Instruction.ofWord 0x00000023 .B))) := by decide
theorem test_step_op : firstPass 0xAAB399B3 = some (4, some (.instruction (Instruction.ofWord 0xAAB399B3 .R))) := by decide
theorem test_step_lui : firstPass 0x12345637 = some (4, some (.instruction (Instruction.ofWord 0x12345637 .L))) := by decide
theorem test_step_branch : firstPass 0xAAB3B9E3 = some (4, some (.instruction (Instruction.ofWord 0xAAB3B9E3 .B))) := by decide
theorem test_step_jalr : firstPass 0x00000067 = some (4, some (.instruction (Instruction.ofWord 0x00000067 .I))) := by decide
theorem test_step_jal : firstPass 0xAAB3B9EF = some (4, some (.instruction (Instruction.ofWord 0xAAB3B9EF .J))) := by decide
theorem test_step_system : firstPass 0x00000073 = some (4, some (.instruction (Instruction.ofWord 0x00000073 .I))) := by decide
/-- The step from reset with nothing loaded: memory is zero, so decode fails (R131) and the run ends (R239), with no fault
(R205). -/
theorem test_step_from_reset :
    step State.reset = .next { State.reset with
      ended := some (.decode .unsupportedEncoding), replies := [.err (.decode .unsupportedEncoding)] } := rfl
/-- P5, the third pass: pc is past the end of memory, and there is no fault. -/
theorem test_P5_fetch_past_the_end :
    step (machineAt defaultConfig 8 8) = .next { machineAt defaultConfig 8 8 with
      ended := some .outOfBounds, replies := [.err .outOfBounds] } := rfl
/-- P2, the third pass: an opcode the table has not got. pc stays at 8. -/
theorem test_P2_unknown_opcode_ends_the_run :
    (nextOf (step { machineAt defaultConfig 16 8 with mem := [(8, 0x13)] })).map (fun s => (s.pc, s.ended)) =
      some (8, some (.decode .unknownOpcode)) := by decide
/-- An ended run stays in its end state (R239), and the block accepts further transactions (R205). -/
theorem test_after_the_end_of_a_run : let s : State := { machineAt defaultConfig 8 8 with ended := some .outOfBounds }
    step s = .next s ∧
      (nextOf (step { s with script := [.readU32 4] })).map State.replies = some [.word 0] := ⟨rfl, by decide⟩
/-- A word of a caller's own table that no row lists is handed over (41_decoder.md R135 and R138). -/
theorem test_step_of_an_unlisted_word :
    (nextOf (step { machineAt { defaultConfig with fmtTable := [(0b0000111, .R4)] } 8 0 with mem := [(0, 0x07)] })).map
      (fun s => (s.pc, s.replies)) = some (4, [.instruction (Instruction.ofWord 0x07 .R4)]) := by decide

/-! The register file and pc (V41 to V50b). -/

theorem test_V41_x0_at_creation : ∀ cfg ∈ [defaultConfig, zeroed], replyOf (perform (.regRead 0) (machine cfg 0 [])) = some (.word 0) := by
  decide
theorem test_V42_x1_at_creation :
    faultOf (perform (.regRead 1) (machine defaultConfig 0 [])) = some .unwrittenRead ∧
      replyOf (perform (.regRead 1) (machine zeroed 0 [])) = some (.word 0) := by decide
theorem test_V44_write_31_then_read : (runScript [.regWrite 31 0xDEADBEEF, .regRead 31] (machine defaultConfig 0 [])).state.replies =
    [.word 0xDEADBEEF, .done] := by decide
theorem test_V47_index_32_comes_before_unwritten :
    faultOf (perform (.regRead 40) (machine defaultConfig 0 [])) = some .regIndexOutOfRange ∧
      faultOf (perform (.regRead 32) (machine defaultConfig 0 [])) = some .regIndexOutOfRange ∧
      faultOf (perform (.regRead 255) (machine defaultConfig 0 [])) = some .regIndexOutOfRange ∧
      faultOf (perform (.regWrite 32 1) (machine defaultConfig 0 [])) = some .regIndexOutOfRange := by decide
theorem test_V48_pc_at_creation :
    faultOf (perform .pcRead (machine defaultConfig 0 [])) = some .unwrittenRead ∧
      faultOf (perform .pcIncrement (machine defaultConfig 0 [])) = some .unwrittenRead ∧
      replyOf (perform .pcRead (machine zeroed 0 [])) = some (.word 0) ∧
      pcAfter (perform .pcIncrement (machine zeroed 0 [])) = some 4 := by decide
theorem test_V8_pc_increment : pcAfter (perform .pcIncrement (machineAt defaultConfig 0 16)) = some 20 := by decide
theorem test_V49_last_increment : pcAfter (perform .pcIncrement (machineAt defaultConfig 0 0xFFFFFFFB)) = some 0xFFFFFFFF := by decide
theorem test_V50_pc_overflow :
    faultOf (perform .pcIncrement (machineAt defaultConfig 0 0xFFFFFFFC)) = some .pcOverflow ∧
      pcAfter (perform .pcIncrement (machineAt wrapping 0 0xFFFFFFFC)) = some 0 := by decide
theorem test_V50a_unaligned_pc : pcAfter (perform .pcIncrement (machineAt defaultConfig 0 2)) = some 6 := by decide

/-! Memory (V51 to V65). -/

theorem test_V52_write_u32 : memAfter (perform (.writeU32 0 0x11223344) (machine defaultConfig 8 [])) = some v52.mem := by decide
theorem test_V53_mixed_reads :
    replyOf (perform (.readU8 0) v52) = some (.byte 0x44) ∧ replyOf (perform (.readU8 3) v52) = some (.byte 0x11) ∧
      replyOf (perform (.readU16 0) v52) = some (.half 0x3344) ∧ replyOf (perform (.readU16 1) v52) = some (.half 0x2233) ∧
      replyOf (perform (.readU16 2) v52) = some (.half 0x1122) := by decide
theorem test_V55_odd_write_u16 :
    memAfter (perform (.writeU16 3 0xBEEF) (machine defaultConfig 8 [])) = some [(3, 0xEF), (4, 0xBE)] := by decide
theorem test_V56_unaligned_write_u32 :
    memAfter (perform (.writeU32 1 0xA1B2C3D4) (machine defaultConfig 8 [])) = some [(1, 0xD4), (2, 0xC3), (3, 0xB2), (4, 0xA1)] := by
  decide
theorem test_V58_reads_past_the_end :
    [5, 6, 7, 8].map (fun a => replyOf (perform (.readU32 a) (machine defaultConfig 8 []))) =
      List.replicate 4 (some (.err .outOfBounds)) := by decide
theorem test_V59_V60_edges :
    replyOf (perform (.readU16 6) (machine defaultConfig 8 [])) = some (.half 0) ∧
      replyOf (perform (.readU16 7) (machine defaultConfig 8 [])) = some (.err .outOfBounds) ∧
      replyOf (perform (.readU8 7) (machine defaultConfig 8 [])) = some (.byte 0) ∧
      replyOf (perform (.readU8 0xFFFFFFFF) (machine defaultConfig 8 [])) = some (.err .outOfBounds) := by decide
theorem test_V61_no_partial_write :
    perform (.writeU16 7 0x1234) { machine defaultConfig 8 [] with mem := [(7, 0x55)] } =
      .next ({ machine defaultConfig 8 [] with mem := [(7, 0x55)] }, .err .outOfBounds) := rfl
theorem test_V63_no_wrap :
    replyOf (perform (.readU32 0xFFFFFFFC) (machine defaultConfig (2 ^ 32) [])) = some (.word 0) ∧
      replyOf (perform (.readU32 0xFFFFFFFD) (machine defaultConfig (2 ^ 32) [])) = some (.err .outOfBounds) ∧
      replyOf (perform (.readU16 0xFFFFFFFF) (machine defaultConfig (2 ^ 32) [])) = some (.err .outOfBounds) := by decide
theorem test_V64_empty_memory :
    replyOf (perform (.readU8 0) (machine defaultConfig 0 [])) = some (.err .outOfBounds) ∧
      replyOf (perform (.writeU8 0 1) (machine defaultConfig 0 [])) = some (.err .outOfBounds) := by decide
/-- Writing zero takes the entry away, so equal memories are equal data. -/
theorem test_writing_zero_unlists : memAfter (perform (.writeU8 0 0) v52) = some [(1, 0x33), (2, 0x22), (3, 0x11)] := by decide

/-! fsr and the accessors (V40d, 42_register_file.md R165). -/

theorem test_fsr_is_refused :
    perform .fsrRead State.reset = .refused .fsrAccess ∧ perform (.fsrWrite 1) State.reset = .refused .fsrAccess := ⟨rfl, rfl⟩
theorem test_V40d_accessors :
    replyOf (perform (.instrField (Instruction.ofWord 0x80000003 .I) .rd) State.reset) = some (.field ⟨5, 16⟩) ∧
      perform (.instrField (Instruction.ofWord 0x80000003 .I) .rs2) State.reset = .refused .fieldNotOfFormat := ⟨by decide, rfl⟩
theorem test_instruction_opcode_and_format :
    replyOf (perform (.instrOpcode (Instruction.ofWord 0x80000003 .I)) State.reset) = some (.opcode 0x03) ∧
      replyOf (perform (.instrFormat (Instruction.ofWord 0x80000003 .I)) State.reset) = some (.format .I) ∧
      replyOf (perform (.extractOpcode 0x80000003) State.reset) = some (.opcode 0x03) := by decide
theorem test_core_starts_at_reset : core.reset = State.reset ∧ core.step = step := ⟨rfl, rfl⟩

/-! Witnesses: for each statement with hypotheses, inputs that meet all of them. -/

theorem witness_ExtractionIsTotalAndPure :
    FieldName.funct10 ∈ fieldsOf .R ∧ FieldName.rs3 ∈ fieldsOf .R4 ∧ FieldName.imm ∈ fieldsOf .I ∧ FieldName.rs2 ∈ fieldsOf .B ∧
      FieldName.imm ∈ fieldsOf .L ∧ FieldName.offset ∈ fieldsOf .J := by decide
theorem witness_AccessorsAnswerTheFormatsOwnFields : let i := Instruction.ofWord 0x80000003 .I
    FieldName.rd ∈ fieldsOf i.format ∧ FieldName.offset ∉ fieldsOf i.format ∧
      (Instruction.ofWord 0x12345677 .R4).format = .R4 := by decide
theorem witness_TheOpcodeAloneChoosesTheFormat :
    ((0xFFFFFFFF#32).toNat % 4 = 3 ∧ rv32iExtended.formatOf (BitVec.ofNat 7 ((0xFFFFFFFF#32).toNat % 128)) = none) ∧
      (0x80000003#32).toNat % 4 = 3 ∧ yarvisObserved.formatOf (BitVec.ofNat 7 ((0x80000003#32).toNat % 128)) = some .I := by decide
theorem witness_AnyFieldValuesAreAccepted :
    decodeWord yarvisObserved 0x80000003 = .ok (Instruction.ofWord 0x80000003 .I) ∧
      (0xAAB3B983#32).toNat % 128 = (0x80000003#32).toNat % 128 := by decide
theorem witness_DecodeReadsAndWritesNoState :
    (machineAt ext 8 4).cfg.fmtTable = State.reset.cfg.fmtTable ∧ machineAt ext 8 4 ≠ State.reset := by decide
theorem witness_TheDefaultTableAcceptsOnlyLoad :
    (0x80000003#32).toNat % 128 = 0b0000011 ∧ (0x00000013#32).toNat % 128 ≠ 0b0000011 ∧ (0x00000013#32).toNat % 4 = 3 := by decide
theorem witness_LoadDecodesWithAnyFields :
    (0xAAB3B983#32).toNat % 128 = 0b0000011 ∧ yarvisObserved ∈ [yarvisObserved, rv32iExtended] := by decide
theorem witness_TheExtendedTableOutcomes : (0xFFFFFFFF#32).toNat % 4 = 3 ∧ (0xAAB399B3#32).toNat % 4 = 3 := by decide
theorem witness_DecodingAnEncodedInstructionGivesItBack :
    (Instr.jal 0x1556773).wf rv32iExtended ∧ (Instr.load 31 31 0xFFF 7).wf yarvisObserved := by decide
theorem witness_EncodingADecodedInstructionGivesItsBytes :
    decodeBytes rv32iExtended [0xB3, 0x99, 0xB3, 0xAA, 0x01] = .ok (.op 21 10 25 0x333, [0x01]) := by decide
theorem witness_OperandsAreTheDecodedFields : decodeInstr rv32iExtended 0xAAB3B9E3 = .ok (.branch 10 25 0xAEE 3) := by decide
theorem witness_MultiByteAccessesAreLittleEndian :
    writeU32 4 0xCAFEF00D (machine defaultConfig 8 []) =
      .ok { machine defaultConfig 8 [] with mem := [(4, 0x0D), (5, 0xF0), (6, 0xFE), (7, 0xCA)] } ∧
    writeU16 6 0xBEEF (machine defaultConfig 8 []) = .ok { machine defaultConfig 8 [] with mem := [(6, 0xEF), (7, 0xBE)] } ∧
    readU32 0 v52 = .ok 0x11223344 ∧ readU16 1 v52 = .ok 0x2233 := by decide
theorem witness_InBoundsAccessesNeedNoAlignment :
    (7#32).toNat + 1 ≤ v52.memLen ∧ (6#32).toNat + 2 ≤ v52.memLen ∧ (4#32).toNat + 4 ≤ v52.memLen ∧
      (1#32).toNat + 4 ≤ v52.memLen ∧ (0xFFFFFFFC#32).toNat + 4 ≤ State.reset.memLen := by decide
theorem witness_OutOfBoundsAccessesChangeNothing :
    v52.memLen < (8#32).toNat + 1 ∧ v52.memLen < (7#32).toNat + 2 ∧ v52.memLen < (5#32).toNat + 4 ∧
      State.reset.memLen < (0xFFFFFFFD#32).toNat + 4 := by decide
theorem witness_EveryWidthSeesTheSameBytes :
    (State.reset.memLen ≤ 2 ^ 32 ∧ (0xFFFFFFFC#32).toNat + 4 ≤ State.reset.memLen) ∧ v52.memLen ≤ 2 ^ 32 ∧
      (4#32).toNat + 4 ≤ v52.memLen := by decide
/-- Both parts: the machine is one just created, its script stores and ends, and the address is the last one. -/
theorem witness_AReadReturnsTheLastByteStored :
    (runScript [.writeU8 7 0x55, .writeU16 7 0x1234] (machine defaultConfig 8 [])).stop = none ∧
      lastByteStored 8 [.writeU8 7 0x55, .writeU16 7 0x1234] 7 = some 0x55 ∧
      create defaultConfig 8 = .next (machine defaultConfig 8 []) ∧ (7#32).toNat < (machine defaultConfig 8 []).memLen :=
  ⟨by decide, by decide, rfl, by decide⟩
/-- Two wide stores in either order end in memories that read alike. -/
theorem witness_MemoriesThatReadAlikeAreEqual :
    let m := Memory.write (Memory.write [] 0 2 0x3344#16) 4 2 0x1122#16
    let m' := Memory.write (Memory.write [] 4 2 0x1122#16) 0 2 0x3344#16
    Memory.wf m ∧ Memory.wf m' ∧ ∀ a, Memory.byteAt m a = Memory.byteAt m' a := ⟨by decide, by decide, fun _ => rfl⟩
theorem witness_RegistersAreFreelyReadAndWritten :
    (1#8 ≠ 0#8 ∧ (1#8).toNat < 32) ∧ (31#8 ≠ 0#8 ∧ (31#8).toNat < 32) ∧
      ∃ t, step (machine defaultConfig 0 [.regWrite 5 1]) = .next t ∧ t.x ≠ (machine defaultConfig 0 [.regWrite 5 1]).x :=
  ⟨by decide, by decide, _, rfl, by decide⟩
theorem witness_RegisterIndexesPast31Fault : 32 ≤ (32#8).toNat ∧ 32 ≤ (255#8).toNat := by decide
theorem witness_UnwrittenRegistersFaultWhenRead :
    ((31#8).toNat < 32 ∧ 31#8 ≠ 0#8) ∧
      ((machine defaultConfig 0 []).cfg.regInit = .unwritten ∧ (machine defaultConfig 0 []).written[31] = false) ∧
      State.reset.cfg.regInit = .zero ∧
      ({ machine defaultConfig 0 [] with written := Vector.replicate 32 true } : State).written[31] = true := by decide
theorem witness_ARegisterReadReturnsTheLastValueStored :
    (runScript [.regWrite 5 1, .regWrite 0 9, .regWrite 5 2] (machine defaultConfig 0 [])).stop = none ∧
      lastRegStored [.regWrite 5 1, .regWrite 0 9, .regWrite 5 2] 5 = some 2 ∧
      lastRegStored [.regWrite 5 1, .regWrite 0 9, .regWrite 5 2] 0 = some 9 ∧
      lastRegStored [.regWrite 5 1, .regWrite 0 9, .regWrite 5 2] 6 = none := by decide
/-- One state for each clause, at the last value of its range and the first. -/
theorem witness_PcIncrementAddsFour :
    ((machine defaultConfig 0 []).cfg.regInit = .unwritten ∧ (machine defaultConfig 0 []).writtenPc = false) ∧
      ((machineAt defaultConfig 0 0xFFFFFFFB).pcReadable ∧ (machineAt defaultConfig 0 0xFFFFFFFB).pc.toNat + 4 < 2 ^ 32) ∧
      ((machineAt wrapping 0 0xFFFFFFFC).pcReadable ∧ 2 ^ 32 ≤ (machineAt wrapping 0 0xFFFFFFFC).pc.toNat + 4 ∧
        (machineAt wrapping 0 0xFFFFFFFC).cfg.pcOverflow = .wrap) ∧
      (machineAt defaultConfig 0 0xFFFFFFFC).pcReadable ∧ 2 ^ 32 ≤ (machineAt defaultConfig 0 0xFFFFFFFC).pc.toNat + 4 ∧
        (machineAt defaultConfig 0 0xFFFFFFFC).cfg.pcOverflow = .fault := by decide
theorem witness_MemoryIsZeroAtCreationAndKeepsItsLength :
    create defaultConfig 8 = .next (machine defaultConfig 8 []) ∧ (7#32).toNat < 8 ∧
      ∃ t, step (machine defaultConfig 8 [.writeU8 7 1]) = .next t := ⟨rfl, by decide, _, rfl⟩
theorem witness_CreationRefusesMalformedParameters :
    ((∀ e ∈ rv32iExtended, e.1.toNat % 4 = 3) ∧ (rv32iExtended.map Prod.fst).Nodup ∧ 2 ^ 32 ≤ 2 ^ 32) ∧
      (∃ e ∈ ([(0b0010010, .I)] : FmtTable), e.1.toNat % 4 ≠ 3) ∧
      ¬ (([(opcLoad, .I), (opcLoad, .L)] : FmtTable).map Prod.fst).Nodup ∧ 2 ^ 32 < 2 ^ 32 + 1 := by decide
theorem witness_RegistersAtCreation :
    (create zeroed 8 = .next (machine zeroed 8 []) ∧ zeroed.regInit = .zero) ∧
      create defaultConfig 8 = .next (machine defaultConfig 8 []) ∧ defaultConfig.regInit = .unwritten :=
  ⟨⟨rfl, rfl⟩, rfl, rfl⟩
theorem witness_CreatedMachinesSatisfyTheInvariant :
    create resetConfig (2 ^ 32) = .next State.reset ∧ create defaultConfig 0 = .next (machine defaultConfig 0 []) :=
  ⟨rfl, rfl⟩
/-- A state with memory, a register and pc written, and a step from it. -/
def busy : State :=
  { machineAt ext 8 4 with
    mem := [(4, 0x13)], x := (Vector.replicate 32 0#32).set 5 7#32, written := (Vector.replicate 32 false).set 5 true }
theorem busy_inv : busy.Inv where
  table := by decide
  length := by decide
  canonical := by decide
  inside := by decide
  zeroCell := by decide
  zeroFlag := by decide
  unwrittenCells := by decide
  unwrittenPc := by decide
theorem witness_EveryStepKeepsTheInvariant : busy.Inv ∧ ∃ t, step busy = .next t := ⟨busy_inv, _, rfl⟩
theorem witness_NoStepChangesTheParameters : ∃ t, step busy = .next t := ⟨_, rfl⟩
theorem witness_ReturnedErrorsChangeNothing :
    (perform (.readU32 6) v52 = .next (v52, .err .outOfBounds)) ∧
      (machine defaultConfig 8 [.decode 0, .regRead 0]).script = .decode 0 :: [.regRead 0] ∧
      perform (.decode 0) { machine defaultConfig 8 [.decode 0, .regRead 0] with script := [.regRead 0], ended := none } =
        .next (machine defaultConfig 8 [.regRead 0], .err (.decode .unsupportedEncoding)) := ⟨rfl, rfl, rfl⟩
/-- Each clause, and of the second and the third each case: a transaction of its own and a pass of the loop. The last is a
LOAD word in the four bytes at pc = 0xFFFFFFFC. -/
theorem witness_StepsFaultOnlyForNamedCauses :
    step (machine defaultConfig 0 [.regRead 32]) = .fault .regIndexOutOfRange ∧
      step (machine defaultConfig 0 [.regWrite 255 1]) = .fault .regIndexOutOfRange ∧
      step (machine defaultConfig 0 [.regRead 31]) = .fault .unwrittenRead ∧
      step (machine defaultConfig 0 [.pcRead]) = .fault .unwrittenRead ∧
      step (machine defaultConfig 0 [.pcIncrement]) = .fault .unwrittenRead ∧
      step (machine defaultConfig 0 []) = .fault .unwrittenRead ∧
      step { machineAt defaultConfig 0 0xFFFFFFFC with script := [.pcIncrement] } = .fault .pcOverflow ∧
      step { machineAt defaultConfig (2 ^ 32) 0xFFFFFFFC with mem := [(0xFFFFFFFC, 0x03)] } = .fault .pcOverflow :=
  ⟨rfl, rfl, rfl, rfl, rfl, rfl, rfl, rfl⟩
theorem witness_AnEndedRunStaysEnded :
    (RunState.go { state := machine defaultConfig 0 [], stop := none } 1).stop ≠ none ∧
      ({ state := machine defaultConfig 0 [], stop := none } : RunState).stop = none ∧
      step (machine defaultConfig 0 []) = .fault .unwrittenRead ∧
      step (machine defaultConfig 0 [.fsrRead]) = .refused .fsrAccess ∧
      ({ State.reset with ended := some .outOfBounds } : State).script = [] ∧
      ({ State.reset with ended := some .outOfBounds } : State).ended ≠ none :=
  ⟨by decide, rfl, rfl, rfl, rfl, by decide⟩
theorem witness_TheLoopIsSafeUnderZeroAndWrap :
    let s := machine { fmtTable := rv32iExtended, pcOverflow := .wrap, regInit := .zero } (2 ^ 32) []
    s.script = [] ∧ s.cfg.regInit = .zero ∧ s.cfg.pcOverflow = .wrap := by decide
/-- The word stands in the last four bytes of memory. -/
theorem witness_AStepRunsTheDecodedInstruction :
    busy.script = [] ∧ busy.ended = none ∧ busy.pcReadable ∧ busy.pc.toNat + 4 ≤ busy.memLen ∧
      decodeBytes busy.cfg.fmtTable [busy.mem.byteAt busy.pc.toNat, busy.mem.byteAt (busy.pc.toNat + 1),
        busy.mem.byteAt (busy.pc.toNat + 2), busy.mem.byteAt (busy.pc.toNat + 3)] = .ok (.opImm 0 0 0 0, []) := by decide
theorem witness_AStepPerformsTheNextTransaction :
    (machine defaultConfig 8 [.writeU8 2 0xAB, .pcRead]).script = .writeU8 2 0xAB :: [.pcRead] ∧
      perform (.writeU8 2 0xAB) { machine defaultConfig 8 [.writeU8 2 0xAB, .pcRead] with script := [.pcRead], ended := none } =
        .next ({ machine defaultConfig 8 [.pcRead] with mem := [(2, 0xAB)] }, .done) := ⟨rfl, rfl⟩
theorem witness_AStepIsOnePassOfTheReferenceLoop : State.reset.script = [] ∧ State.reset.ended = none := ⟨rfl, rfl⟩
theorem witness_AFetchSeesAStoreToCode :
    let s : State := { machineAt ext 12 1 with script := [.writeU32 1 0x80000003] }
    s.script = [.writeU32 s.pc 0x80000003] ∧ s.pcReadable ∧ s.pc.toNat + 4 ≤ s.memLen ∧
      decodeInstr s.cfg.fmtTable 0x80000003 = .ok (.load 16 0 0 0) := by decide
theorem witness_TheLoopEndsAtItsFirstError :
    ((machine defaultConfig 8 []).script = [] ∧ (machine defaultConfig 8 []).ended = none ∧
        ¬ (machine defaultConfig 8 []).pcReadable) ∧
      ((machineAt defaultConfig 8 5).pcReadable ∧ (machineAt defaultConfig 8 5).memLen < (machineAt defaultConfig 8 5).pc.toNat + 4) ∧
      (machineAt defaultConfig 8 4).pcReadable ∧ readU32 4 (machineAt defaultConfig 8 4) = .ok 0 ∧
      decodeWord defaultConfig.fmtTable 0 = .err .unsupportedEncoding ∧
      (nextOf (step (machineAt defaultConfig 8 4))).map State.ended = some (some (.decode .unsupportedEncoding)) := by decide
theorem witness_APlacedInstructionRunsNext :
    (Instr.jalr 6 7 0x7FE 1).wf State.reset.cfg.fmtTable ∧ (Instr.load 31 31 0xFFF 7).wf (machineAt defaultConfig 0 0xFFFFFFFF).cfg.fmtTable := by
  decide
/-- The word is fetched where no memory can hold four bytes at pc, too. -/
theorem test_placed_at_the_top_of_the_address_space :
    (nextOf (step ((machineAt defaultConfig 0 0xFFFFFFFD).withFetchWord 32 0xAAB3B983))).map State.replies =
      some [.instruction (Instruction.ofWord 0xAAB3B983 .I)] := by decide
/-- The hypothesis of the four completion statements, at reset, at the last pc that can advance and where it wraps. -/
theorem witness_instructions_complete :
    State.reset.pcAdvances ∧ (machineAt ext 8 0xFFFFFFFB).pcAdvances ∧ (machineAt wrapping 8 0xFFFFFFFC).pcAdvances := by decide
theorem witness_InstructionsChangeOnlyPc : ∃ t, exec (.store 3 4 0x801 2) State.reset = .next t := ⟨_, rfl⟩
theorem witness_InstructionsStopWherePcCannotAdvance :
    (¬ (machine defaultConfig 8 []).pcReadable) ∧ (machineAt defaultConfig 8 0xFFFFFFFC).pcReadable ∧
      2 ^ 32 ≤ (machineAt defaultConfig 8 0xFFFFFFFC).pc.toNat + 4 ∧
      (machineAt defaultConfig 8 0xFFFFFFFC).cfg.pcOverflow = .fault := by decide

end Sys2Proof.Tests
end

section
/-! The register file and the memory as 10_state.md describes them: x[0] is hardwired, the other registers take any
value, only a register write changes a register cell, and a memory keeps the length it was created with. -/

namespace Sys2Proof.Machine

/-! A register write as a transaction (42_register_file.md R160 and R161). -/

/-- A register write is answered with its register's cell and flag set. -/
theorem perform_regWrite_next {n : RegIndex} (v : Word) (s : State) (hn : n ≠ 0#8) (h : n.toNat < 32) :
    perform (.regWrite n v) s =
      .next ({ s with x := s.x.set n.toNat v, written := s.written.set n.toNat true }, .done) := by
  simp only [perform, writeReg_next v s hn h, answerUpdate]

/-- A register read that ends is answered with its value in the state as it was. -/
theorem perform_regRead_next {n : RegIndex} {v : Word} {s : State} (h : readReg n s = .ok v) :
    perform (.regRead n) s = .next (s, .word v) := by
  simp only [perform, h, answerRead]

/-! What a transaction and a step leave unchanged. -/

/-- A transaction that changes a register cell is a register write (10_state.md R22). -/
theorem perform_x_eq_or_regWrite {t : Transaction} {s u : State} {r : Reply} (h : perform t s = .next (u, r)) :
    u.x = s.x ∨ ∃ n v, t = .regWrite n v := by
  rcases perform_cases h with rfl | ⟨n, v, -, ht, -⟩ | ⟨v, -, -, rfl⟩ | ⟨-, -, -, rfl⟩ | ⟨a, v, -, -, -, rfl⟩ |
    ⟨a, v, -, -, -, rfl⟩ | ⟨a, v, -, -, -, rfl⟩
  case inr.inl => exact .inr ⟨n, v, ht⟩
  all_goals exact .inl rfl

/-- No transaction changes the length of the memory (10_state.md R27). -/
theorem perform_memLen {t : Transaction} {s u : State} {r : Reply} (h : perform t s = .next (u, r)) :
    u.memLen = s.memLen := by
  rcases perform_cases h with rfl | ⟨n, v, -, -, -, -, rfl⟩ | ⟨v, -, -, rfl⟩ | ⟨-, -, -, rfl⟩ | ⟨a, v, -, -, -, rfl⟩ |
    ⟨a, v, -, -, -, rfl⟩ | ⟨a, v, -, -, -, rfl⟩ <;> rfl

/-- A step that changes a register cell performs a register write (10_state.md R22). -/
theorem step_x_eq_or_regWrite {s t : State} (h : step s = .next t) :
    t.x = s.x ∨ ∃ n v rest, s.script = .regWrite n v :: rest := by
  rcases step_cases h with ⟨tr, rest, u, r, hs, hp, rfl⟩ | ⟨-, -, rfl⟩ | ⟨-, -, i, -, rfl⟩ | ⟨-, -, e, rfl⟩
  · rcases perform_x_eq_or_regWrite hp with hx | ⟨n, v, rfl⟩
    · exact .inl hx
    · exact .inr ⟨n, v, rest, hs⟩
  all_goals exact .inl rfl

/-- No step changes the length of the memory (10_state.md R27). -/
theorem step_memLen {s t : State} (h : step s = .next t) : t.memLen = s.memLen := by
  rcases step_cases h with ⟨tr, rest, u, r, -, hp, rfl⟩ | ⟨-, -, rfl⟩ | ⟨-, -, i, -, rfl⟩ | ⟨-, -, e, rfl⟩
  · exact (perform_memLen hp :)
  all_goals rfl

/-! A read of one byte. -/

/-- A read of one byte is that byte (20_memory.md R53). -/
theorem Memory.read_one (m : Memory) (a : Nat) : m.read a 1 = m.byteAt a := by
  simp [Memory.read]

/-- A byte read in bounds answers that byte (43_memory_ops.md R171). -/
theorem readU8_next {a : Word} {s : State} (h : a.toNat < s.memLen) : readU8 a s = .ok (s.mem.byteAt a.toNat) := by
  rw [readU8, readMem_next h, Memory.read_one]

/-! The statements. -/

/-- Settles O26: both operations test for index 0 before they look at any cell or flag. -/
theorem registerZeroIsHardwired : Obligations.RegisterZeroIsHardwired := by
  intro s v
  have hread : readReg 0#8 s = .ok 0#32 := by simp [readReg]
  have hwrite : writeReg 0#8 v s = .ok s := by simp [writeReg]
  exact ⟨perform_regRead_next hread, by simp only [perform, hwrite, answerUpdate]⟩

/-- Settles O27: the write's exact effect gives the four facts about it, and the case analysis of a step names the only
writer of a register cell. -/
theorem registersAreFreelyReadAndWritten : Obligations.RegistersAreFreelyReadAndWritten := by
  refine ⟨fun n v s hn h => ?_, fun s t hstep hx => (step_x_eq_or_regWrite hstep).resolve_left hx⟩
  have hread (m : RegIndex) := readReg_set m v s hn h
  refine ⟨_, perform_regWrite_next v s hn h, perform_regRead_next ?_, fun m hm => ?_, rfl⟩
  · rw [hread, if_pos rfl]
  · rw [hread, if_neg hm]

/-- Settles O35: a created machine lists no byte, and every step keeps the length. -/
theorem memoryIsZeroAtCreationAndKeepsItsLength : Obligations.MemoryIsZeroAtCreationAndKeepsItsLength := by
  refine ⟨fun cfg n s hs => ?_, fun s t => step_memLen⟩
  obtain ⟨-, -, rfl⟩ := create_cases hs
  exact ⟨rfl, fun a ha => readU8_next ha⟩

end Sys2Proof.Machine
end

section
/-! The memory accesses of 20_memory.md, said once for every width: which byte of memory holds which bits of a value
read or written, the number a read assembles, and what an access in bounds answers at any address. -/

namespace Sys2Proof.Machine

/-! The byte order (R52). -/

/-- After a write that ends, each covered byte holds its bits of the value (R52, R54). -/
theorem byteAt_of_writeMem {n k : Nat} {a : Word} {v : BitVec (8 * n)} {s t : State} (h : writeMem n a v s = .ok t)
    (hk : k < n) : t.mem.byteAt (a.toNat + k) = v.extractLsb' (8 * k) 8 := by
  obtain ⟨-, rfl⟩ := writeMem_cases h
  rw [Memory.byteAt_write, if_pos (by omega), Nat.add_sub_cancel_left]

/-- Where a read ends, each covered byte holds its bits of the value (R52, R53). -/
theorem byteAt_of_readMem {n k : Nat} {a : Word} {v : BitVec (8 * n)} {s : State} (h : readMem n a s = .ok v)
    (hk : k < n) : s.mem.byteAt (a.toNat + k) = v.extractLsb' (8 * k) 8 := by
  obtain ⟨-, rfl⟩ := readMem_cases h
  exact (Memory.extract_read _ _ _ _ hk).symm

/-- The number a read assembles: its lowest byte, and 2 ^ 8 times what the bytes above it assemble (R53). -/
theorem Memory.toNat_read_succ (m : Memory) (a n : Nat) :
    (m.read a (n + 1)).toNat = (m.byteAt a).toNat + (m.read (a + 1) n).toNat * 2 ^ 8 := by
  have hlow : (m.byteAt a).toNat < 2 ^ 8 := (m.byteAt a).isLt
  have hhigh : (m.read (a + 1) n).toNat < 2 ^ (8 * n) := (m.read (a + 1) n).isLt
  have hsize : 2 ^ (8 * (n + 1)) = 2 ^ (8 * n) * 2 ^ 8 := by rw [Nat.mul_succ, Nat.pow_add]
  have hshift : (m.read (a + 1) n).toNat <<< 8 = (m.read (a + 1) n).toNat * 2 ^ 8 := Nat.shiftLeft_eq _ _
  have hor := Nat.shiftLeft_add_eq_or_of_lt hlow (m.read (a + 1) n).toNat
  simp only [Memory.read, BitVec.toNat_or, BitVec.toNat_shiftLeft, BitVec.toNat_setWidth]
  rw [Nat.mod_eq_of_lt (a := BitVec.toNat (m.read (a + 1) n)), Nat.mod_eq_of_lt (a := BitVec.toNat (m.byteAt a)),
    Nat.mod_eq_of_lt, ← hor] <;> omega

/-- A two-byte read as a number. -/
theorem Memory.toNat_read_two (m : Memory) (a : Nat) :
    (m.read a 2).toNat = (m.byteAt a).toNat + (m.byteAt (a + 1)).toNat * 2 ^ 8 := by
  rw [Memory.toNat_read_succ, Memory.read_one]

/-- A four-byte read as a number. -/
theorem Memory.toNat_read_four (m : Memory) (a : Nat) :
    (m.read a 4).toNat = (m.byteAt a).toNat + (m.byteAt (a + 1)).toNat * 2 ^ 8 +
      (m.byteAt (a + 2)).toNat * 2 ^ 16 + (m.byteAt (a + 3)).toNat * 2 ^ 24 := by
  rw [Memory.toNat_read_succ, Memory.toNat_read_succ, Memory.toNat_read_two]
  simp only [Nat.add_assoc, Nat.reduceAdd]
  omega

/-! What an access in bounds answers, whatever its address is a multiple of (R57). -/

/-- A read in bounds answers the bytes it covers and changes nothing. -/
theorem answerValue_readMem_next {n : Nat} {a : Word} {s : State} (f : BitVec (8 * n) → Reply) (h : s.inBounds a n) :
    answerValue s f (readMem n a s) = .next (s, f (s.mem.read a.toNat n)) := by
  rw [readMem_next h, answerValue]

/-- A write in bounds ends: each covered byte then reads as its bits of the value, every other byte as before, and
nothing but memory changes. -/
theorem answerWrite_writeMem_next {n : Nat} {a : Word} (v : BitVec (8 * n)) {s : State} (h : s.inBounds a n) :
    ∃ t, answerWrite s (writeMem n a v s) = .next (t, .done) ∧ t = { s with mem := t.mem } ∧
      ∀ b, t.mem.byteAt b =
        if a.toNat ≤ b ∧ b < a.toNat + n then v.extractLsb' (8 * (b - a.toNat)) 8 else s.mem.byteAt b :=
  ⟨{ s with mem := s.mem.write a.toNat n v }, by rw [writeMem_next v h, answerWrite], rfl,
    Memory.byteAt_write s.mem a.toNat n v⟩

/-- A read of one byte in bounds answers that byte and changes nothing. -/
theorem perform_readU8_next {a : Word} {s : State} (h : s.inBounds a 1) :
    perform (.readU8 a) s = .next (s, .byte (s.mem.byteAt a.toNat)) := by
  rw [perform, readU8_next h, answerValue]

/-- A write of one byte in bounds ends: that byte then reads as the value, every other byte as before, and nothing but
memory changes. -/
theorem perform_writeU8_next {a : Word} (v : Byte) {s : State} (h : s.inBounds a 1) :
    ∃ t, perform (.writeU8 a v) s = .next (t, .done) ∧ t = { s with mem := t.mem } ∧
      ∀ b, t.mem.byteAt b = if b = a.toNat then v else s.mem.byteAt b := by
  obtain ⟨t, hanswer, hframe, hbytes⟩ := answerWrite_writeMem_next (n := 1) v h
  refine ⟨t, hanswer, hframe, fun b => ?_⟩
  rw [hbytes]
  by_cases hb : b = a.toNat
  · subst hb
    simp
  · rw [if_neg (by omega), if_neg hb]

/-! The statements. -/

/-- Settles O20: each access is the general one of 2 or 4 bytes, whose bytes are known one by one. -/
theorem multiByteAccessesAreLittleEndian : Obligations.MultiByteAccessesAreLittleEndian :=
  fun _ _ _ _ _ _ => ⟨byteAt_of_writeMem (n := 4), byteAt_of_writeMem (n := 2), byteAt_of_readMem (n := 4),
    byteAt_of_readMem (n := 2)⟩

/-- Settles O21: no access asks more of its address than that its bytes lie in memory. -/
theorem inBoundsAccessesNeedNoAlignment : Obligations.InBoundsAccessesNeedNoAlignment := by
  refine fun s a => ⟨fun h => ?_, fun h => ?_, fun h => ?_⟩
  · exact ⟨perform_readU8_next h, fun v => perform_writeU8_next v h⟩
  · exact ⟨⟨_, answerValue_readMem_next (n := 2) .half h, Memory.toNat_read_two _ _⟩,
      fun v => answerWrite_writeMem_next (n := 2) v h⟩
  · exact ⟨⟨_, answerValue_readMem_next (n := 4) .word h, Memory.toNat_read_four _ _⟩,
      fun v => answerWrite_writeMem_next (n := 4) v h⟩

end Sys2Proof.Machine
end

section
/-! The register fields of 30_encoding.md R82: the index a field names, what a read and a write of it answer, and decode
as a transaction, which reads nothing of the state but the format table. -/

namespace Sys2Proof.Machine

/-! The index of a register field, and what a read and a write of it answer. -/

/-- A register field names the register of its own number (R82). -/
@[simp] theorem regIndexOf_toNat (r : RegField) : (regIndexOf r).toNat = r.toNat :=
  BitVec.toNat_setWidth_of_le (by decide)

/-- Five bits always name one of the 32 registers (R82). -/
theorem regIndexOf_toNat_lt (r : RegField) : (regIndexOf r).toNat < 32 := by
  rw [regIndexOf_toNat]
  exact r.isLt

/-- Only field 0 names x[0]. -/
theorem regIndexOf_eq_zero_iff (r : RegField) : regIndexOf r = 0#8 ↔ r = 0#5 := by
  simp [← BitVec.toNat_inj]

/-- x[0] reads as 0 in every state (42_register_file.md R160). -/
@[simp] theorem readReg_zero (s : State) : readReg 0#8 s = .ok 0#32 := by simp [readReg]

/-- A write of x[0] ends and has no effect (42_register_file.md R161). -/
@[simp] theorem writeReg_zero (v : Word) (s : State) : writeReg 0#8 v s = .ok s := by simp [writeReg]

/-- The only fault a read of a register field can meet is that of an unwritten register. -/
theorem readRegField_fault {r : RegField} {s : State} {f : Fault} (h : readRegField r s = .err f) :
    f = .unwrittenRead := by
  rcases readReg_fault h with ⟨hf, -⟩ | ⟨-, hout⟩
  · exact hf
  · exact absurd (regIndexOf_toNat_lt r) (Nat.not_lt.2 hout)

/-- A write of a register field ends, and the field then reads as the value, or as 0 where it names x[0] (R82 and
42_register_file.md R161). -/
theorem writeRegField_readRegField (r : RegField) (v : Word) (s : State) :
    ∃ t, writeRegField r v s = .ok t ∧ readRegField r t = .ok (if r = 0#5 then 0#32 else v) := by
  unfold writeRegField readRegField
  by_cases h0 : r = 0#5
  · have hn : regIndexOf r = 0#8 := (regIndexOf_eq_zero_iff r).2 h0
    exact ⟨s, by rw [hn, writeReg_zero], by rw [hn, readReg_zero, if_pos h0]⟩
  · have hn : regIndexOf r ≠ 0#8 := mt (regIndexOf_eq_zero_iff r).1 h0
    refine ⟨_, writeReg_next v s hn (regIndexOf_toNat_lt r), ?_⟩
    rw [readReg_set _ v s hn (regIndexOf_toNat_lt r), if_pos rfl, if_neg h0]

/-! Decode as a transaction (41_decoder.md R134). -/

/-- Under one format table decode gives a word one reply, in whatever state, and leaves that state as it was. -/
theorem perform_decode_of_fmtTable (tbl : FmtTable) (w : Word) :
    ∃ r, ∀ s : State, s.cfg.fmtTable = tbl → perform (.decode w) s = .next (s, r) := by
  cases hd : decodeWord tbl w with
  | ok i => exact ⟨.instruction i, fun s hs => by simp only [perform, answerDecode, hs, hd]⟩
  | err e => exact ⟨.err (.decode e), fun s hs => by simp only [perform, answerDecode, hs, hd]⟩

/-! The statement. -/

/-- Settles O30: a field's index is its own number, below 32, and decode's reply is fixed by the word and the table, which
the registers, pc, fsr and memory are no part of. -/
theorem registerFieldsAreLegalIndexes : Obligations.RegisterFieldsAreLegalIndexes := by
  refine ⟨fun r s => ⟨?_, fun h => ?_, fun v => writeRegField_readRegField r v s⟩, fun w s x f p q b m n => ?_⟩
  · rw [readRegField, ← regIndexOf_toNat, BitVec.ofNat_toNat, BitVec.setWidth_eq]
  · cases readRegField_fault h
  · obtain ⟨r, hr⟩ := perform_decode_of_fmtTable s.cfg.fmtTable w
    exact ⟨r, hr s rfl, hr _ rfl⟩

end Sys2Proof.Machine
end

section
/-! The field extraction functions of 40_formats.md as numbers: bits lo upward of a word, n of them, are the word's
quotient by 2 ^ lo modulo 2 ^ n, and format B's immediate is two such fields written one above the other. -/

namespace Sys2Proof

/-- The field of n bits from bit lo upward, as a number (00_scope.md R9 and R11). -/
theorem toNat_field (lo n : Nat) (w : Word) : (w.extractLsb' lo n).toNat = w.toNat / 2 ^ lo % 2 ^ n := by
  rw [BitVec.extractLsb'_toNat, Nat.shiftRight_eq_div_pow]

/-- A field above another, as a number. -/
theorem toNat_append_eq_add {m n : Nat} (high : BitVec m) (low : BitVec n) :
    (high ++ low).toNat = high.toNat * 2 ^ n + low.toNat := by
  rw [BitVec.toNat_append, Nat.shiftLeft_eq, or_eq_add (Nat.dvd_mul_left _ _) low.isLt]

/-- Format B's shift and OR sets bits 31:27 above bits 16:10, no bit of either lost (R116). -/
theorem Formats.B.imm_eq_append (w : Word) : Formats.B.imm w = w.extractLsb' 27 5 ++ w.extractLsb' 10 7 := by
  rw [Formats.B.imm, ← BitVec.setWidth_append_eq_shiftLeft_setWidth_or, BitVec.setWidth_eq]

/-- Format B's immediate as a number (R116). -/
theorem Formats.B.toNat_imm (w : Word) :
    (Formats.B.imm w).toNat = w.toNat / 2 ^ 27 % 2 ^ 5 * 2 ^ 7 + w.toNat / 2 ^ 10 % 2 ^ 7 := by
  rw [Formats.B.imm_eq_append, toNat_append_eq_add, toNat_field, toNat_field]

/-- The opcode as a number, whichever format the word is read as (R121). -/
theorem toNat_opcodeOf (w : Word) : (opcodeOf w).toNat = w.toNat % 128 := by
  rw [opcodeOf_eq, BitVec.toNat_ofNat, Nat.mod_mod]

end Sys2Proof

namespace Sys2Proof.Machine

/-! Extraction as a transaction (R100). -/

/-- A format has an extraction function for exactly the fields 41_decoder.md R142 lists for it. -/
theorem extract_isSome_iff (k : FormatKind) (f : FieldName) (w : Word) : (extract k f w).isSome ↔ f ∈ fieldsOf k := by
  cases k <;> cases f <;> simp [extract, fieldsOf]

/-- A field of the format is answered with the value of its extraction function, in the state as it was. -/
theorem perform_extractField_next {k : FormatKind} {f : FieldName} {w : Word} {v : FieldValue}
    (h : extract k f w = some v) (s : State) : perform (.extractField k f w) s = .next (s, .field v) := by
  rw [perform, h, answerField]

/-! The statements. -/

/-- Settles O4: three fields are taken from one place each, and the immediate is one field above another. -/
theorem bFieldsAreTheirBits : Obligations.BFieldsAreTheirBits :=
  fun w => ⟨toNat_field 22 5 w, toNat_field 17 5 w, Formats.B.toNat_imm w, toNat_field 7 3 w⟩

/-- Settles O1: each function takes its field from one place. -/
theorem rFieldsAreTheirBits : Obligations.RFieldsAreTheirBits :=
  fun w => ⟨toNat_field 27 5 w, toNat_field 22 5 w, toNat_field 17 5 w, toNat_field 7 10 w⟩

/-- Settles O2: each function takes its field from one place. -/
theorem r4FieldsAreTheirBits : Obligations.R4FieldsAreTheirBits :=
  fun w => ⟨toNat_field 27 5 w, toNat_field 22 5 w, toNat_field 17 5 w, toNat_field 12 5 w, toNat_field 7 5 w⟩

/-- Settles O3: each function takes its field from one place, the immediate with no sign. -/
theorem iFieldsAreTheirBits : Obligations.IFieldsAreTheirBits :=
  fun w => ⟨toNat_field 27 5 w, toNat_field 22 5 w, toNat_field 10 12 w, toNat_field 7 3 w⟩

/-- Settles O5: each function takes its field from one place. -/
theorem lAndJFieldsAreTheirBits : Obligations.LAndJFieldsAreTheirBits :=
  fun w => ⟨toNat_field 27 5 w, toNat_field 7 20 w, toNat_field 7 25 w⟩

/-- Settles O6: every field of a format has an extraction function, whose value the transaction answers in any state;
each format's list of values and the opcode's answer are then the model's own equations. -/
theorem extractionIsTotalAndPure : Obligations.ExtractionIsTotalAndPure := by
  refine ⟨fun k f w hf => ?_, fun w => ⟨rfl, rfl, rfl, rfl, rfl, rfl⟩, fun w s => ⟨opcodeOf w, toNat_opcodeOf w, rfl⟩⟩
  obtain ⟨v, hv⟩ := Option.isSome_iff_exists.1 ((extract_isSome_iff k f w).2 hf)
  exact ⟨v, fun s => ⟨perform_extractField_next hv s, hv⟩⟩

end Sys2Proof.Machine
end

section
/-! The decoder of 41_decoder.md: for each of its three answers, exactly which words it is given to, the tables' entries
at LOAD's opcode, and decode as a transaction. -/

namespace Sys2Proof

/-! Each answer of decode, and the words it is given to (R130). -/

/-- Only the length check answers UnsupportedEncoding (R131). -/
theorem decodeWord_eq_unsupportedEncoding_iff (t : FmtTable) (w : Word) :
    decodeWord t w = .err .unsupportedEncoding ↔ w.toNat % 4 ≠ 3 := by
  rw [Ne, ← lowBits_eq_iff w]
  obtain ⟨hlow, hd⟩ | ⟨hlow, -, hd⟩ | ⟨k, hlow, -, hd⟩ := decodeWord_cases t w
  · simp [hlow, hd]
  · simp [hlow, hd]
  · simp [hlow, hd]

/-- Only a table without the opcode answers UnknownOpcode, and only past the length check (R132). -/
theorem decodeWord_eq_unknownOpcode_iff (t : FmtTable) (w : Word) :
    decodeWord t w = .err .unknownOpcode ↔ w.toNat % 4 = 3 ∧ t.formatOf (opcodeOf w) = none := by
  rw [← lowBits_eq_iff w]
  obtain ⟨hlow, hd⟩ | ⟨hlow, ht, hd⟩ | ⟨k, hlow, ht, hd⟩ := decodeWord_cases t w
  · simp [hlow, hd]
  · simp [hlow, ht, hd]
  · simp [hlow, ht, hd]

/-- A word is accepted where it passes the length check and the table has its opcode, and nothing else is asked of it
(R133). -/
theorem decodeWord_eq_ok_iff (t : FmtTable) (w : Word) (i : Instruction) :
    decodeWord t w = .ok i ↔
      w.toNat % 4 = 3 ∧ ∃ k, t.formatOf (opcodeOf w) = some k ∧ Instruction.ofWord w k = i := by
  rw [← lowBits_eq_iff w]
  obtain ⟨hlow, hd⟩ | ⟨hlow, ht, hd⟩ | ⟨k, hlow, ht, hd⟩ := decodeWord_cases t w
  · simp [hlow, hd]
  · simp [hlow, ht, hd]
  · simp [hlow, ht, hd]

/-- The Instruction of a word whose opcode the table has. -/
theorem decodeWord_eq_ofWord {t : FmtTable} {w : Word} {k : FormatKind} (hlow : w.toNat % 4 = 3)
    (ht : t.formatOf (opcodeOf w) = some k) : decodeWord t w = .ok (Instruction.ofWord w k) :=
  (decodeWord_eq_ok_iff t w _).2 ⟨hlow, k, ht, rfl⟩

/-! LOAD's opcode in the tables (R136, R137). -/

/-- LOAD's opcode as a number. -/
theorem opcodeOf_eq_opcLoad_iff (w : Word) : opcodeOf w = opcLoad ↔ w.toNat % 128 = 0b0000011 := by
  rw [← BitVec.toNat_inj, toNat_opcodeOf]
  rfl

/-- The default table has no entry but LOAD's (R136). -/
theorem yarvisObserved_formatOf_eq_none {o : Opcode} (h : o ≠ opcLoad) : yarvisObserved.formatOf o = none :=
  if_neg h.symm

/-- Both tables give LOAD's opcode format I (R136, R137). -/
theorem formatOf_opcLoad : ∀ t ∈ [yarvisObserved, rv32iExtended], t.formatOf opcLoad = some .I := by
  decide

/-- A word with LOAD's opcode decodes to format I under both tables (R143). -/
theorem decodeWord_load {w : Word} (h : w.toNat % 128 = 0b0000011) {t : FmtTable}
    (ht : t ∈ [yarvisObserved, rv32iExtended]) : decodeWord t w = .ok (Instruction.ofWord w .I) := by
  have hentry : t.formatOf (opcodeOf w) = some .I := by rw [(opcodeOf_eq_opcLoad_iff w).2 h, formatOf_opcLoad t ht]
  exact decodeWord_eq_ofWord (by omega) hentry

end Sys2Proof

namespace Sys2Proof.Machine

/-! The statements. -/

/-- Settles O10: past the length check, the table's entry at the opcode is all that each answer turns on. -/
theorem theOpcodeAloneChoosesTheFormat : Obligations.TheOpcodeAloneChoosesTheFormat := by
  intro t w hlow
  rw [← opcodeOf_eq w]
  refine ⟨?_, fun k ht => ⟨Instruction.ofWord w k, decodeWord_eq_ofWord hlow ht, rfl⟩⟩
  rw [decodeWord_eq_unknownOpcode_iff, and_iff_right hlow]

/-- Settles O11: the accepted word's low two bits and its table entry are the other word's too, since both stand in the
opcode the two share. -/
theorem anyFieldValuesAreAccepted : Obligations.AnyFieldValuesAreAccepted := by
  intro t w w' i hi hsame
  obtain ⟨hlow, k, ht, rfl⟩ := (decodeWord_eq_ok_iff t w i).1 hi
  have hlow' : w'.toNat % 4 = 3 := by omega
  have hopcode : opcodeOf w' = opcodeOf w := by rw [opcodeOf_eq, opcodeOf_eq, hsame]
  exact ⟨Instruction.ofWord w' k, decodeWord_eq_ofWord hlow' (hopcode ▸ ht), rfl, toNat_opcodeOf w', rfl⟩

/-- Settles O13: the default table's one entry is LOAD's. -/
theorem theDefaultTableAcceptsOnlyLoad : Obligations.TheDefaultTableAcceptsOnlyLoad := by
  refine fun w => ⟨fun h => ?_, fun h hlow => ?_, rfl, rfl⟩
  · exact ⟨_, decodeWord_load h List.mem_cons_self, rfl, (opcodeOf_eq_opcLoad_iff w).2 h, rfl⟩
  · have hopcode : opcodeOf w ≠ opcLoad := mt (opcodeOf_eq_opcLoad_iff w).1 h
    exact (decodeWord_eq_unknownOpcode_iff _ w).2 ⟨hlow, yarvisObserved_formatOf_eq_none hopcode⟩

/-- Settles O14: both tables accept the word in format I, whose accessors are its own extraction functions. -/
theorem loadDecodesWithAnyFields : Obligations.LoadDecodesWithAnyFields :=
  fun w h _ ht => ⟨Instruction.ofWord w .I, decodeWord_load h ht, rfl, (opcodeOf_eq_opcLoad_iff w).2 h, rfl, rfl, rfl,
    rfl, rfl⟩

/-- Settles O9: no answer but the length check's is UnsupportedEncoding. -/
theorem lowBitsNotElevenAreUnsupported : Obligations.LowBitsNotElevenAreUnsupported :=
  decodeWord_eq_unsupportedEncoding_iff

/-- Settles O12: under one table a word has one reply, whatever the state. -/
theorem decodeReadsAndWritesNoState : Obligations.DecodeReadsAndWritesNoState := by
  intro w s s' htable
  obtain ⟨r, hr⟩ := perform_decode_of_fmtTable s'.cfg.fmtTable w
  exact ⟨r, hr s htable, hr s' rfl⟩

end Sys2Proof.Machine
end

section
/-! The register file over a script of transactions (42_register_file.md R166): a script runs one transaction at a time,
each transaction stores one value or none in a register, and the last one stored is the one a read returns. -/

namespace Sys2Proof.Machine

/-! A run that nothing stops, one step and one transaction at a time (60_exceptions.md R206 and R207). -/

/-- A run that has stopped stays as it is. -/
theorem RunState.go_of_stop {r : RunState} (h : r.stop ≠ none) (k : Nat) : r.go k = r := by
  obtain ⟨s, stop⟩ := r
  cases stop with
  | none => exact absurd rfl h
  | some e =>
    induction k with
    | zero => rfl
    | succ k ih => exact ih

/-- A run of one step more that nothing stops takes that step, and goes on from the state it reaches. -/
theorem RunState.go_succ_cases {s : State} {k : Nat} (h : (RunState.go ⟨s, none⟩ (k + 1)).stop = none) :
    ∃ t, step s = .next t ∧ RunState.go ⟨s, none⟩ (k + 1) = RunState.go ⟨t, none⟩ k := by
  rw [RunState.go] at h ⊢
  cases hstep : step s with
  | next t => exact ⟨t, rfl, by simp only [RunState.advance, hstep]⟩
  | fault f => simp [RunState.advance, hstep, RunState.go_of_stop] at h
  | refused e => simp [RunState.advance, hstep, RunState.go_of_stop] at h

/-- No transaction changes the transactions that wait. -/
theorem perform_script {t : Transaction} {s u : State} {r : Reply} (h : perform t s = .next (u, r)) :
    u.script = s.script := by
  rcases perform_cases h with rfl | ⟨n, v, -, -, -, -, rfl⟩ | ⟨v, -, -, rfl⟩ | ⟨-, -, -, rfl⟩ | ⟨a, v, -, -, -, rfl⟩ |
    ⟨a, v, -, -, -, rfl⟩ | ⟨a, v, -, -, -, rfl⟩ <;> rfl

/-- A script that nothing stops performs its first transaction, and then the others from the state that one leaves. -/
theorem runScript_cons {t : Transaction} {ts : List Transaction} {s : State}
    (h : (runScript (t :: ts) s).stop = none) :
    ∃ u r, perform t { s with script := ts, ended := none } = .next (u, r) ∧
      runScript (t :: ts) s = runScript ts (u.reply r) := by
  obtain ⟨s', hstep, hgo⟩ := RunState.go_succ_cases h
  rcases step_cases hstep with ⟨t', rest, u, r, hs, hp, rfl⟩ | ⟨hs, -⟩ | ⟨hs, -⟩ | ⟨hs, -⟩
  case inl =>
    obtain ⟨rfl, rfl⟩ := List.cons.inj hs
    have hwait : (u.reply r).script = ts := perform_script hp
    refine ⟨u, r, hp, hgo.trans ?_⟩
    rw [runScript, ← hwait]
  all_goals cases hs

/-! What a register reads as after one transaction. -/

/-- A register write that is answered has ended (42_register_file.md R161). -/
theorem writeReg_of_perform {m : RegIndex} {v : Word} {s u : State} {r : Reply}
    (h : perform (.regWrite m v) s = .next (u, r)) : writeReg m v s = .ok u := by
  simp only [perform, answerUpdate] at h
  split at h
  · next t ht => cases h; exact ht
  · cases h

/-- After a register write a register other than x[0] reads as the value where it is the one written, and as before
where it is not, a write of x[0] included. -/
theorem readReg_of_writeReg {m n : RegIndex} {v : Word} {s u : State} (h : writeReg m v s = .ok u) (hn : n ≠ 0#8) :
    readReg n u = if m = n then .ok v else readReg n s := by
  rcases writeReg_cases h with ⟨rfl, rfl⟩ | ⟨hm, hlt, rfl⟩
  · rw [if_neg hn.symm]
  · simp only [readReg_set n v s hm hlt, eq_comm]

/-- No transaction but a register write changes what a register reads as. -/
theorem perform_readReg_eq {t : Transaction} {s u : State} {r : Reply} (h : perform t s = .next (u, r))
    (ht : ∀ m v, t ≠ .regWrite m v) (n : RegIndex) : readReg n u = readReg n s := by
  rcases perform_cases h with rfl | ⟨m, v, -, hw, -⟩ | ⟨v, -, -, rfl⟩ | ⟨-, -, -, rfl⟩ | ⟨a, v, -, -, -, rfl⟩ |
    ⟨a, v, -, -, -, rfl⟩ | ⟨a, v, -, -, -, rfl⟩
  case inr.inl => exact absurd hw (ht m v)
  all_goals exact readReg_congr rfl rfl rfl n

/-- No transaction but a register write stores a value in a register. -/
theorem regStored_eq_none {t : Transaction} (ht : ∀ m v, t ≠ .regWrite m v) (n : RegIndex) : regStored t n = none := by
  cases t with
  | regWrite m v => exact absurd rfl (ht m v)
  | _ => rfl

/-- After a transaction a register other than x[0] reads as the value the transaction stored in it, and as before where
it stored none. -/
theorem readReg_of_perform {t : Transaction} {s u : State} {r : Reply} (h : perform t s = .next (u, r)) {n : RegIndex}
    (hn : n ≠ 0#8) : readReg n u = (regStored t n).elim (readReg n s) .ok := by
  by_cases hw : ∃ m v, t = .regWrite m v
  · obtain ⟨m, v, rfl⟩ := hw
    rw [readReg_of_writeReg (writeReg_of_perform h) hn, regStored]
    split <;> rfl
  · have ht (m : RegIndex) (v : Word) : t ≠ .regWrite m v := fun e => hw ⟨m, v, e⟩
    rw [perform_readReg_eq h ht, regStored_eq_none ht, Option.elim_none]

/-! What a register reads as after a script. -/

/-- After a script that nothing stops a register other than x[0] reads as the last value the script stored in it, and as
before where it stored none. -/
theorem readReg_of_runScript {ts : List Transaction} {s : State} (h : (runScript ts s).stop = none) {n : RegIndex}
    (hn : n ≠ 0#8) : readReg n (runScript ts s).state = (lastRegStored ts n).elim (readReg n s) .ok := by
  induction ts generalizing s with
  | nil => exact readReg_congr rfl rfl rfl n
  | cons t ts ih =>
    obtain ⟨u, r, hp, hrun⟩ := runScript_cons h
    rw [hrun] at h ⊢
    have hfirst : readReg n (u.reply r) = (regStored t n).elim (readReg n s) .ok := readReg_of_perform hp hn
    rw [ih h, hfirst, lastRegStored]
    cases lastRegStored ts n <;> rfl

/-! The statement. -/

/-- Settles O31, by induction on the script; x[0] reads as 0 whatever was stored. -/
theorem aRegisterReadReturnsTheLastValueStored : Obligations.ARegisterReadReturnsTheLastValueStored := by
  intro s ts n h
  by_cases hn : n = 0#8
  · subst hn
    cases lastRegStored ts 0#8 <;> simp
  · rw [readReg_of_runScript h hn]
    cases lastRegStored ts n <;> simp [hn]

end Sys2Proof.Machine
end

section
/-! The codec of 30_encoding.md and 41_decoder.md: in every format the fields and the opcode make up the word, an
Instruction stands for an instruction by name exactly when it is that instruction's own, and so decode and encode are
each other's inverse, on words and on bytes. -/

namespace Sys2Proof

/-! Each format's fields and the opcode, put back at their places, are the word (30_encoding.md R80). -/

/-- Two fields of a word that lie next to each other, put back at their places, are the one field they make up. -/
theorem place_field_or {w : Word} {high lo m n : Nat} (h : high = lo + n) :
    place high (w.extractLsb' high m) ||| place lo (w.extractLsb' lo n) = place lo (w.extractLsb' lo (n + m)) := by
  apply BitVec.eq_of_getLsbD_eq
  simp [getLsbD_place]
  grind

/-- A whole word is its own place. -/
theorem place_zero (w : Word) : place 0 w = w := by
  simp [place]

/-- The two parts of format B's immediate are the bits they were taken from (R77). -/
theorem Formats.B.imm_parts (w : Word) :
    (Formats.B.imm w).extractLsb' 7 5 = w.extractLsb' 27 5 ∧ (Formats.B.imm w).extractLsb' 0 7 = w.extractLsb' 10 7 := by
  rw [Formats.B.imm_eq_append]
  exact ⟨BitVec.extractLsb'_append_eq_left .., BitVec.extractLsb'_append_eq_right ..⟩

section
variable {w : Word} {o : Opcode} (h : opcodeOf w = o)
include h

theorem encodeR_fields :
    encodeR (Formats.R.rd w) (Formats.R.rs1 w) (Formats.R.rs2 w) (Formats.R.funct10 w) o = w := by
  subst h
  simp [encodeR, Formats.R.rd, Formats.R.rs1, Formats.R.rs2, Formats.R.funct10, opcodeOf, place_field_or, place_zero]

theorem encodeR4_fields :
    encodeR4 (Formats.R4.rd w) (Formats.R4.rs1 w) (Formats.R4.rs2 w) (Formats.R4.rs3 w) (Formats.R4.funct5 w) o = w := by
  subst h
  simp [encodeR4, Formats.R4.rd, Formats.R4.rs1, Formats.R4.rs2, Formats.R4.rs3, Formats.R4.funct5, opcodeOf,
    place_field_or, place_zero]

theorem encodeI_fields :
    encodeI (Formats.I.rd w) (Formats.I.rs1 w) (Formats.I.imm w) (Formats.I.funct3 w) o = w := by
  subst h
  simp [encodeI, Formats.I.rd, Formats.I.rs1, Formats.I.imm, Formats.I.funct3, opcodeOf, place_field_or, place_zero]

theorem encodeB_fields :
    encodeB (Formats.B.rs1 w) (Formats.B.rs2 w) (Formats.B.imm w) (Formats.B.funct3 w) o = w := by
  subst h
  obtain ⟨hhigh, hlow⟩ := Formats.B.imm_parts w
  simp [encodeB, Formats.B.rs1, Formats.B.rs2, hhigh, hlow, Formats.B.funct3, opcodeOf, place_field_or, place_zero]

theorem encodeL_fields : encodeL (Formats.L.rd w) (Formats.L.imm w) o = w := by
  subst h
  simp [encodeL, Formats.L.rd, Formats.L.imm, opcodeOf, place_field_or, place_zero]

theorem encodeJ_fields : encodeJ (Formats.J.offset w) o = w := by
  subst h
  simp [encodeJ, Formats.J.offset, opcodeOf, place_field_or, place_zero]

end

/-- The bytes of a word made of four bytes are those four (20_memory.md R52). -/
theorem bytesOfWord_wordOfBytes (b0 b1 b2 b3 : Byte) : bytesOfWord (wordOfBytes b0 b1 b2 b3) = [b0, b1, b2, b3] := by
  unfold bytesOfWord wordOfBytes
  simp only [List.cons.injEq, and_true]
  refine ⟨?_, ?_, ?_, ?_⟩ <;> (ext i hi; simp [getLsbD_place]; grind)

/-- Two Instructions made of words are the same only where word and format are. -/
theorem Instruction.ofWord_inj {w w' : Word} {k k' : FormatKind} :
    Instruction.ofWord w k = Instruction.ofWord w' k' ↔ w = w' ∧ k = k' := by
  refine ⟨fun h => ⟨congrArg Instruction.bits h, congrArg Instruction.format h⟩, ?_⟩
  rintro ⟨rfl, rfl⟩
  rfl

/-- A table has no format for an opcode exactly where none of its entries is that opcode's (41_decoder.md R132). -/
theorem FmtTable.formatOf_eq_none_iff (t : FmtTable) (o : Opcode) : t.formatOf o = none ↔ o ∉ t.map Prod.fst := by
  induction t with
  | nil => simp [FmtTable.formatOf]
  | cons e t ih =>
    unfold FmtTable.formatOf
    by_cases he : e.1 = o
    · simp [he]
    · simp [he, Ne.symm he, ih]

/-- The ten opcodes of the spec's optional table as numbers (R137). -/
theorem rv32iExtended_opcodes : ∀ o ∈ rv32iExtended.map Prod.fst,
    o.toNat ∈ [0x03, 0x13, 0x17, 0x23, 0x33, 0x37, 0x63, 0x67, 0x6F, 0x73] := by
  decide

end Sys2Proof

namespace Sys2Proof.Machine

/-! An instruction by name and its Instruction (41_decoder.md R143 to R152). -/

/-- An instruction's Instruction stands for it. -/
@[simp] theorem toInstr_instructionOf (i : Instr) : (instructionOf i).toInstr = some i := by
  cases i <;> simp [instructionOf, Instruction.toInstr, encode, Instr.format, opcLoad, opcOpImm, opcAuipc, opcStore,
    opcOp, opcLui, opcBranch, opcJalr, opcJal, opcSystem]

/-- An Instruction stands for an instruction by name only where it is that instruction's: the opcode and the format
are the row's, and the word's fields are the operands. -/
theorem toInstr_eq_some_iff (ins : Instruction) (i : Instr) : ins.toInstr = some i ↔ ins = instructionOf i := by
  refine ⟨fun h => ?_, fun h => h ▸ toInstr_instructionOf i⟩
  obtain ⟨w, o, k, rfl⟩ := ins
  unfold Instruction.toInstr at h
  cases k <;> dsimp only at h
  case R4 => cases h
  case R =>
    split at h <;> cases h
    next ho => exact Instruction.ofWord_inj.2 ⟨(encodeR_fields ho).symm, rfl⟩
  case J =>
    split at h <;> cases h
    next ho => exact Instruction.ofWord_inj.2 ⟨(encodeJ_fields ho).symm, rfl⟩
  case I =>
    repeat' split at h
    all_goals cases h
    all_goals next ho => exact Instruction.ofWord_inj.2 ⟨(encodeI_fields ho).symm, rfl⟩
  case B =>
    repeat' split at h
    all_goals cases h
    all_goals next ho => exact Instruction.ofWord_inj.2 ⟨(encodeB_fields ho).symm, rfl⟩
  case L =>
    repeat' split at h
    all_goals cases h
    all_goals next ho => exact Instruction.ofWord_inj.2 ⟨(encodeL_fields ho).symm, rfl⟩

/-- The word of an instruction the table admits decodes to the instruction's Instruction (41_decoder.md R133). -/
theorem decodeWord_encode {t : FmtTable} {i : Instr} (h : i.wf t) : decodeWord t (encode i) = .ok (instructionOf i) := by
  obtain ⟨hopcode, hlow⟩ := Laws.encoding_statement i
  have hbits : (encode i).extractLsb' 0 2 = 0b11#2 := by rw [← lowBits_opcodeOf, hopcode, hlow]
  exact decodeWord_eq_ofWord ((lowBits_eq_iff _).1 hbits) (by rw [hopcode]; exact h)

/-- A word decodes to an instruction by name exactly where it is the instruction's word and the table admits the
instruction. -/
theorem decodeInstr_eq_ok_iff (t : FmtTable) (w : Word) (i : Instr) :
    decodeInstr t w = .ok i ↔ w = encode i ∧ i.wf t := by
  constructor
  · intro h
    unfold decodeInstr at h
    split at h
    · cases h
    · next ins hd =>
      split at h
      · cases h
      · next j hj =>
        cases h
        obtain ⟨-, k, ht, rfl⟩ := (decodeWord_eq_ok_iff t w ins).1 hd
        obtain ⟨rfl, rfl⟩ := Instruction.ofWord_inj.1 ((toInstr_eq_some_iff _ i).1 hj)
        exact ⟨rfl, by rwa [(Laws.encoding_statement i).1] at ht⟩
  · rintro ⟨rfl, hwf⟩
    simp only [decodeInstr, decodeWord_encode hwf, toInstr_instructionOf]

/-- Bytes decode to an instruction and the bytes left exactly where they are the bytes of its word and then those left,
and the table admits the instruction. -/
theorem decodeBytes_eq_ok_iff (t : FmtTable) (bs : List Byte) (i : Instr) (rest : List Byte) :
    decodeBytes t bs = .ok (i, rest) ↔ bs = bytesOfWord (encode i) ++ rest ∧ i.wf t := by
  constructor
  · intro h
    unfold decodeBytes at h
    split at h
    · next b0 b1 b2 b3 left =>
      split at h
      · next j hj =>
        cases h
        obtain ⟨hw, hwf⟩ := (decodeInstr_eq_ok_iff t _ i).1 hj
        exact ⟨by rw [← hw, bytesOfWord_wordOfBytes]; rfl, hwf⟩
      · cases h
    · cases h
  · rintro ⟨rfl, hwf⟩
    have hd : decodeInstr t (encode i) = .ok i := (decodeInstr_eq_ok_iff t _ i).2 ⟨rfl, hwf⟩
    simp only [bytesOfWord, List.cons_append, List.nil_append, decodeBytes, wordOfBytes_bytes, hd]

/-- Each operand of an instruction is what its Instruction's accessor of that field answers (41_decoder.md R142). -/
theorem field_instructionOf {i : Instr} {p : FieldName × FieldValue} (h : p ∈ operandsOf i) :
    (instructionOf i).field p.1 = some p.2 := by
  revert p
  cases i <;> simp [operandsOf, instructionOf, Instr.format, encode, Instruction.field, extract, FieldValue.of]

/-- An instruction's operands are exactly the fields of its format, in their order. -/
theorem operandsOf_names (i : Instr) : (operandsOf i).map Prod.fst = fieldsOf i.format := by
  cases i <;> rfl

/-! The statements. -/

/-- Settles O16: the bytes are those of the word of an instruction the table admits. -/
theorem decodingAnEncodedInstructionGivesItBack : Obligations.DecodingAnEncodedInstructionGivesItBack :=
  fun t i rest hwf => (decodeBytes_eq_ok_iff t _ i rest).2 ⟨rfl, hwf⟩

/-- Settles O17: no bytes decode to an instruction but those of its word. -/
theorem encodingADecodedInstructionGivesItsBytes : Obligations.EncodingADecodedInstructionGivesItsBytes :=
  fun t bs i rest => (decodeBytes_eq_ok_iff t bs i rest).1

/-- Settles O7: the encoder of each format puts the extracted fields back at their places. -/
theorem fieldsCoverEveryBit : Obligations.FieldsCoverEveryBit :=
  fun _ => ⟨encodeR_fields rfl, encodeR4_fields rfl, encodeI_fields rfl, encodeB_fields rfl, encodeL_fields rfl,
    encodeJ_fields rfl⟩

/-- Settles O8: an accessor answers where its format has the field, and only there. -/
theorem accessorsAnswerTheFormatsOwnFields : Obligations.AccessorsAnswerTheFormatsOwnFields := by
  refine fun i f s => ⟨fun hf => ?_, fun hf => ?_, fun hk => ?_⟩
  · obtain ⟨v, hv⟩ := Option.isSome_iff_exists.1 ((extract_isSome_iff i.format f i.bits).2 hf)
    exact ⟨v, hv, by rw [perform, Instruction.field, hv, answerField]⟩
  · have hv : extract i.format f i.bits = none :=
      Option.not_isSome_iff_eq_none.1 (mt (extract_isSome_iff i.format f i.bits).1 hf)
    rw [perform, Instruction.field, hv, answerField]
  · obtain ⟨w, o, k, ho⟩ := i
    subst hk
    rfl

/-- Settles O15: each listed number is the opcode of the table's entry of that row, and an opcode of no listed number has
no entry. -/
theorem theExtendedTableOutcomes : Obligations.TheExtendedTableOutcomes := by
  intro w hlow
  split
  case h_11 =>
    have hnone : rv32iExtended.formatOf (opcodeOf w) = none := by
      refine (FmtTable.formatOf_eq_none_iff _ _).2 fun hmem => ?_
      have hlisted := rv32iExtended_opcodes _ hmem
      rw [toNat_opcodeOf] at hlisted
      simp_all
    exact (decodeWord_eq_unknownOpcode_iff _ w).2 ⟨hlow, hnone⟩
  all_goals
    next hn => exact decodeWord_eq_ofWord hlow (by rw [opcodeOf_eq, hn]; rfl)

/-- Settles O18: the word is the instruction's own, and so is the Instruction decode answers. -/
theorem operandsAreTheDecodedFields : Obligations.OperandsAreTheDecodedFields := by
  intro t w i h
  obtain ⟨rfl, hwf⟩ := (decodeInstr_eq_ok_iff t w i).1 h
  exact ⟨instructionOf i, decodeWord_encode hwf, rfl, rfl, (Laws.encoding_statement i).1,
    fun _ => field_instructionOf, operandsOf_names i⟩

/-- Settles O19: the decoder evaluated on each word. -/
theorem exampleWordsDecode : Obligations.ExampleWordsDecode := by
  unfold Obligations.ExampleWordsDecode
  decide

end Sys2Proof.Machine
end

section
/-! Memory over accesses of every width and over scripts (20_memory.md R54 to R56 and section 5): a canonical memory is
what it reads as, accesses of different widths see the same bytes, a byte reads as the last one a script stored, and an
access that is not in bounds does nothing. -/

namespace Sys2Proof.Machine

/-! The canonical form (10_state.md section 4). -/

/-- A canonical memory lists exactly the bytes that read as something other than 0x00. -/
theorem Memory.mem_iff_byteAt {m : Memory} (h : m.wf) (c : Host.Cell) : c ∈ m ↔ m.byteAt c.1 = c.2 ∧ c.2 ≠ 0#8 := by
  induction m with
  | nil =>
    simp only [List.not_mem_nil, Memory.byteAt, false_iff, not_and, not_not]
    exact Eq.symm
  | cons d m ih =>
    obtain ⟨hrising, hbytes⟩ := h
    rw [List.pairwise_cons] at hrising
    rw [List.forall_mem_cons] at hbytes
    have hm : Memory.wf m := ⟨hrising.2, hbytes.2⟩
    unfold Memory.byteAt
    by_cases hd : d.1 = c.1
    · have hc : c ∉ m := fun hmem => absurd (hrising.1 c hmem) (by omega)
      have hbyte : d.2 ≠ 0#8 := hbytes.1
      rw [List.mem_cons, or_iff_left hc, if_pos hd, Prod.ext_iff]
      exact ⟨fun ⟨_, hv⟩ => ⟨hv.symm, hv ▸ hbyte⟩, fun ⟨hv, _⟩ => ⟨hd.symm, hv.symm⟩⟩
    · have hc : c ≠ d := fun e => hd (e ▸ rfl)
      rw [List.mem_cons, or_iff_right hc, if_neg hd, ih hm]

/-! Accesses of different widths (R54, R59). -/

/-- A read inside the bytes just written gives its part of the value. -/
theorem Memory.read_write_part (m : Memory) {a n i k : Nat} (v : BitVec (8 * n)) (h : i + k ≤ n) :
    (m.write a n v).read (a + i) k = v.extractLsb' (8 * i) (8 * k) := by
  refine Memory.read_write fun j hj => ?_
  rw [if_pos (by omega), Nat.add_assoc, Nat.add_sub_cancel_left]
  ext b hb
  have hin : 8 * j + b < 8 * k := by omega
  simp [hin, Nat.mul_add, Nat.add_assoc]

/-- After a write inside the bytes just written, the whole is any value with the inner value in its place and the outer
one around it. -/
theorem Memory.read_write_inner {m : Memory} {a n i k : Nat} {v w : BitVec (8 * n)} {inner : BitVec (8 * k)}
    (h : ∀ j < n, w.extractLsb' (8 * j) 8 =
      if i ≤ j ∧ j < i + k then inner.extractLsb' (8 * (j - i)) 8 else v.extractLsb' (8 * j) 8) :
    ((m.write a n v).write (a + i) k inner).read a n = w := by
  refine Memory.read_write fun j hj => ?_
  have houter : a ≤ a + j ∧ a + j < a + n := by omega
  rw [h j hj, Memory.byteAt_write, if_pos houter, Nat.add_sub_add_left, Nat.add_sub_cancel_left]
  exact if_congr (by omega) rfl rfl

/-- The address i bytes above one whose accesses do not leave the address space (R51). -/
theorem toNat_add_ofNat {a : Word} {i : Nat} (h : a.toNat + i < 2 ^ 32) : (a + BitVec.ofNat 32 i).toNat = a.toNat + i := by
  simp [BitVec.toNat_add]
  omega

/-- Whether an access is in bounds depends on the length alone, so a read after a write ends where one before it would. -/
theorem readMem_setMem {n : Nat} {a : Word} {s : State} (m : Memory) (h : s.inBounds a n) :
    readMem n a { s with mem := m } = .ok (m.read a.toNat n) :=
  if_pos h

section
variable {s : State} {a b : Word} {n i k : Nat} {v : BitVec (8 * n)} (hb : b.toNat = a.toNat + i) (hin : s.inBounds a n)
  (hik : i + k ≤ n)
include hb hin hik

/-- A read that lies inside a write in bounds ends and gives its part of the value. -/
theorem readMem_write_part : readMem k b { s with mem := s.mem.write a.toNat n v } = .ok (v.extractLsb' (8 * i) (8 * k)) := by
  have hbounds : b.toNat + k ≤ s.memLen := by omega
  rw [readMem_setMem _ hbounds, hb, Memory.read_write_part _ _ hik]

/-- A write that lies inside a write in bounds ends, is read back, and replaces its own bytes of the value alone. -/
theorem writeMem_write_inner {w : BitVec (8 * n)} {inner : BitVec (8 * k)}
    (h : ∀ j < n, w.extractLsb' (8 * j) 8 =
      if i ≤ j ∧ j < i + k then inner.extractLsb' (8 * (j - i)) 8 else v.extractLsb' (8 * j) 8) :
    ∃ u, writeMem k b inner { s with mem := s.mem.write a.toNat n v } = .ok u ∧ readMem k b u = .ok inner ∧
      readMem n a u = .ok w := by
  have hbounds : b.toNat + k ≤ s.memLen := by omega
  refine ⟨_, writeMem_next inner hbounds, ?_, ?_⟩
  · rw [readMem_setMem _ hbounds, Memory.read_write_same]
  · rw [readMem_setMem _ hin, hb, Memory.read_write_inner h]

end

/-! Accesses that are not in bounds (R55, R56). -/

theorem readMem_outOfBounds {n : Nat} {a : Word} {s : State} (h : s.memLen < a.toNat + n) :
    readMem n a s = .err .outOfBounds :=
  if_neg (Nat.not_le.2 h)

theorem writeMem_outOfBounds {n : Nat} {a : Word} (v : BitVec (8 * n)) {s : State} (h : s.memLen < a.toNat + n) :
    writeMem n a v s = .err .outOfBounds :=
  if_neg (Nat.not_le.2 h)

/-! What a byte reads as after a transaction and after a script (section 5). -/

/-- After a memory write that is answered, each byte it covers reads as its bits of the value where the write is in
bounds, and every other byte, and every byte where it is not, reads as before. -/
theorem byteAt_of_answerWrite {n : Nat} {a : Word} {v : BitVec (8 * n)} {s u : State} {r : Reply}
    (h : answerWrite s (writeMem n a v s) = .next (u, r)) (b : Nat) :
    u.mem.byteAt b =
      (if a.toNat + n ≤ s.memLen ∧ a.toNat ≤ b ∧ b < a.toNat + n then some (v.extractLsb' (8 * (b - a.toNat)) 8)
        else none).getD (s.mem.byteAt b) := by
  by_cases hb : a.toNat + n ≤ s.memLen
  · rw [writeMem_next v hb] at h
    cases h
    rw [Memory.byteAt_write]
    simp only [hb, true_and]
    split <;> rfl
  · rw [writeMem_outOfBounds v (by omega)] at h
    cases h
    simp [hb]

/-- The one byte an 8-bit write stores, said as the wider writes say theirs. -/
theorem byteStored_writeU8 (length : Nat) (a : Word) (v : Byte) (b : Nat) :
    byteStored length (.writeU8 a v) b =
      if a.toNat + 1 ≤ length ∧ a.toNat ≤ b ∧ b < a.toNat + 1 then some (v.extractLsb' (8 * (b - a.toNat)) 8)
      else none := by
  by_cases hb : b = a.toNat
  · subst hb
    simp [byteStored]
  · rw [byteStored, if_neg (by omega), if_neg (by omega)]

/-- After a transaction a byte reads as the one the transaction stored there, and as before where it stored none. -/
theorem byteAt_of_perform {t : Transaction} {s u : State} {r : Reply} (h : perform t s = .next (u, r)) (b : Nat) :
    u.mem.byteAt b = (byteStored s.memLen t b).getD (s.mem.byteAt b) := by
  cases t with
  | writeU8 a v =>
    rw [byteStored_writeU8]
    exact byteAt_of_answerWrite (n := 1) h b
  | writeU16 a v => exact byteAt_of_answerWrite (n := 2) h b
  | writeU32 a v => exact byteAt_of_answerWrite (n := 4) h b
  | _ =>
    rcases perform_cases h with rfl | ⟨n, v, -, -, -, -, rfl⟩ | ⟨v, -, -, rfl⟩ | ⟨-, -, -, rfl⟩ | ⟨a, v, ht, -⟩ |
      ⟨a, v, ht, -⟩ | ⟨a, v, ht, -⟩
    any_goals rfl
    all_goals cases ht

/-- No script changes the length of the memory. -/
theorem memLen_of_runScript {ts : List Transaction} {s : State} (h : (runScript ts s).stop = none) :
    (runScript ts s).state.memLen = s.memLen := by
  induction ts generalizing s with
  | nil => rfl
  | cons t ts ih =>
    obtain ⟨u, r, hp, hrun⟩ := runScript_cons h
    rw [hrun] at h ⊢
    exact (ih h).trans (perform_memLen hp :)

/-- After a script that nothing stops a byte reads as the last one the script stored there, and as before where it stored
none. -/
theorem byteAt_of_runScript {ts : List Transaction} {s : State} (h : (runScript ts s).stop = none) (b : Nat) :
    (runScript ts s).state.mem.byteAt b = (lastByteStored s.memLen ts b).getD (s.mem.byteAt b) := by
  induction ts generalizing s with
  | nil => rfl
  | cons t ts ih =>
    obtain ⟨u, r, hp, hrun⟩ := runScript_cons h
    rw [hrun] at h ⊢
    have hlength : (u.reply r).memLen = s.memLen := (perform_memLen hp :)
    have hfirst : (u.reply r).mem.byteAt b = (byteStored s.memLen t b).getD (s.mem.byteAt b) :=
      (byteAt_of_perform hp b :)
    rw [ih h, hfirst, hlength, lastByteStored]
    cases lastByteStored s.memLen ts b <;> rfl

/-- After a script that nothing stops a byte of memory is read, and the read gives the last one stored there. -/
theorem readU8_of_runScript {ts : List Transaction} {s : State} (h : (runScript ts s).stop = none) {a : Word}
    (ha : a.toNat < s.memLen) :
    readU8 a (runScript ts s).state = .ok ((lastByteStored s.memLen ts a.toNat).getD (s.mem.byteAt a.toNat)) := by
  rw [readU8_next (by rwa [memLen_of_runScript h]), byteAt_of_runScript h]

/-! The statements. -/

/-- Settles O24, by induction on the script; a created memory lists no byte. -/
theorem aReadReturnsTheLastByteStored : Obligations.AReadReturnsTheLastByteStored := by
  refine fun s ts h => ⟨fun a => readU8_of_runScript h, fun cfg n hs a ha => ?_⟩
  obtain ⟨-, -, rfl⟩ := create_cases hs
  exact readU8_of_runScript h ha

/-- Settles O23: each narrow read lies inside the bytes just written, and each narrow write replaces its own of them. -/
theorem everyWidthSeesTheSameBytes : Obligations.EveryWidthSeesTheSameBytes := by
  intro s a v hlen ha
  have h0 : a.toNat = a.toNat + 0 := rfl
  have h1 : (a + 1).toNat = a.toNat + 1 := toNat_add_ofNat (i := 1) (by omega)
  have h2 : (a + 2).toNat = a.toNat + 2 := toNat_add_ofNat (i := 2) (by omega)
  have h3 : (a + 3).toNat = a.toNat + 3 := toNat_add_ofNat (i := 3) (by omega)
  refine ⟨_, writeMem_next (n := 4) v ha, ?_, readMem_write_part (n := 4) (k := 2) h0 ha (by decide),
    readMem_write_part (n := 4) (k := 2) h1 ha (by decide), readMem_write_part (n := 4) (k := 2) h2 ha (by decide),
    readMem_write_part (n := 4) (k := 1) h0 ha (by decide), readMem_write_part (n := 4) (k := 1) h3 ha (by decide),
    fun h => ?_, fun b => ?_⟩
  · rw [readU32, readMem_setMem (n := 4) _ ha, Memory.read_write_same]
  · refine writeMem_write_inner (n := 4) (k := 2) h1 ha (by decide) fun j hj => ?_
    ext c hc
    interval_cases j <;> simp <;> grind
  · refine writeMem_write_inner (n := 4) (k := 1) h1 ha (by decide) fun j hj => ?_
    ext c hc
    interval_cases j <;> simp <;> grind

/-- Settles O25: both list, in rising order, the bytes that read as something other than 0x00. -/
theorem memoriesThatReadAlikeAreEqual : Obligations.MemoriesThatReadAlikeAreEqual := by
  intro m m' hm hm' hread
  have hsame (c : Host.Cell) : c ∈ m ↔ c ∈ m' := by rw [Memory.mem_iff_byteAt hm, Memory.mem_iff_byteAt hm', hread]
  have hnodup {m : Memory} (h : m.wf) : m.Nodup :=
    h.1.imp fun hlt => ne_of_apply_ne Prod.fst (ne_of_lt hlt)
  exact ((List.perm_ext_iff_of_nodup (hnodup hm) (hnodup hm')).2 @hsame).eq_of_pairwise
    (fun c d _ _ hcd hdc => absurd hcd (lt_asymm hdc)) hm.1 hm'.1

/-- Settles O22: each access is the general one, refused whole where a byte of it lies outside memory. -/
theorem outOfBoundsAccessesChangeNothing : Obligations.OutOfBoundsAccessesChangeNothing := by
  have hread {n : Nat} {a : Word} {s : State} (f : BitVec (8 * n) → Reply) (h : s.memLen < a.toNat + n) :
      answerValue s f (readMem n a s) = .next (s, .err .outOfBounds) := by rw [readMem_outOfBounds h, answerValue]
  have hwrite {n : Nat} {a : Word} {s : State} (v : BitVec (8 * n)) (h : s.memLen < a.toNat + n) :
      answerWrite s (writeMem n a v s) = .next (s, .err .outOfBounds) := by rw [writeMem_outOfBounds v h, answerWrite]
  exact fun s a b h v => ⟨fun hb => ⟨hread (n := 1) _ hb, hwrite (n := 1) _ hb⟩,
    fun hb => ⟨hread (n := 2) _ hb, hwrite (n := 2) _ hb⟩, fun hb => ⟨hread (n := 4) _ hb, hwrite (n := 4) _ hb⟩⟩

end Sys2Proof.Machine
end

section
/-! The register file, pc and creation (42_register_file.md, 10_state.md section 7): what a register read, a register
write and a pc_increment answer in each case, which tables and lengths make a machine, and what a new machine's registers
read as. -/

namespace Sys2Proof.Machine

/-! Registers (42_register_file.md R160 and R161). -/

/-- An index past 31 faults before any other check (60_exceptions.md R208). -/
theorem readReg_outOfRange {n : RegIndex} (h : 32 ≤ n.toNat) (s : State) : readReg n s = .err .regIndexOutOfRange :=
  dif_neg (Nat.not_lt.2 h)

theorem writeReg_outOfRange {n : RegIndex} (h : 32 ≤ n.toNat) (v : Word) (s : State) :
    writeReg n v s = .err .regIndexOutOfRange :=
  dif_neg (Nat.not_lt.2 h)

/-- Under REG_INIT = unwritten a register whose flag is clear faults when read (10_state.md R37). -/
theorem readReg_unwritten {n : RegIndex} {s : State} (h : n.toNat < 32) (hn : n ≠ 0#8) (hi : s.cfg.regInit = .unwritten)
    (hw : s.written[n.toNat] = false) : readReg n s = .err .unwrittenRead := by
  rw [readReg, dif_pos h, if_neg hn, if_pos ⟨hi, hw⟩]

/-- Under REG_INIT = zero, or once written, a register reads as its cell. -/
theorem readReg_cell {n : RegIndex} {s : State} (h : n.toNat < 32) (hn : n ≠ 0#8)
    (hr : s.cfg.regInit = .zero ∨ s.written[n.toNat] = true) : readReg n s = .ok s.x[n.toNat] := by
  have hreadable : ¬ (s.cfg.regInit = .unwritten ∧ s.written[n.toNat] = false) := by
    rintro ⟨hi, hw⟩
    rcases hr with hr | hr
    · rw [hi] at hr; cases hr
    · rw [hw] at hr; cases hr
  rw [readReg, dif_pos h, if_neg hn, if_neg hreadable]

/-- A register read that faults is answered with the fault. -/
theorem perform_regRead_fault {n : RegIndex} {s : State} {f : Fault} (h : readReg n s = .err f) :
    perform (.regRead n) s = .fault f := by
  rw [perform, h, answerRead]

/-! pc (42_register_file.md R162 and R164). -/

theorem readPc_readable {s : State} (h : s.pcReadable) : readPc s = .ok s.pc := if_pos h

theorem readPc_unreadable {s : State} (h : ¬ s.pcReadable) : readPc s = .err .unwrittenRead := if_neg h

theorem pcIncrement_unreadable {s : State} (h : ¬ s.pcReadable) : pcIncrement s = .err .unwrittenRead := if_pos h

theorem pcIncrement_overflow {s : State} (hr : s.pcReadable) (ho : 2 ^ 32 ≤ s.pc.toNat + 4)
    (hp : s.cfg.pcOverflow = .fault) : pcIncrement s = .err .pcOverflow := by
  rw [pcIncrement, if_neg (not_not.2 hr), if_neg (Nat.not_lt.2 ho), hp]

/-- Where pc can be advanced the transaction is answered with pc + 4. -/
theorem perform_pcIncrement_next {s : State} (h : s.pcAdvances) :
    perform .pcIncrement s = .next ({ s with pc := s.pc + 4#32 }, .done) := by
  rw [perform, pcIncrement_ok h, answerUpdate]

/-- A pc_increment that faults is answered with the fault. -/
theorem perform_pcIncrement_fault {s : State} {f : Fault} (h : pcIncrement s = .err f) :
    perform .pcIncrement s = .fault f := by
  rw [perform, h, answerUpdate]

/-- pc as a number after it advances by 4 past the top of the address space (R164). -/
theorem pc_add_four_wraps {s : State} (h : 2 ^ 32 ≤ s.pc.toNat + 4) :
    (s.pc + 4#32).toNat = s.pc.toNat + 4 - 2 ^ 32 := by
  rw [BitVec.toNat_add, BitVec.toNat_ofNat]
  omega

/-! Creation (43_memory_ops.md R170, 70_reset_and_hazards.md R233). -/

/-- A well-formed table, with each opcode's low bits as a number (41_decoder.md R135). -/
theorem fmtTable_wf_iff (t : FmtTable) : t.wf ↔ (∀ e ∈ t, e.1.toNat % 4 = 3) ∧ (t.map Prod.fst).Nodup := by
  have hlow (o : Opcode) : o.extractLsb' 0 2 = 0b11#2 ↔ o.toNat % 4 = 3 := by
    rw [← BitVec.toNat_inj]
    simp [BitVec.extractLsb'_toNat]
  simp only [FmtTable.wf, FmtTable.reachable, FmtTable.functional, hlow]

theorem create_next {cfg : Config} {n : Nat} (ht : cfg.fmtTable.wf) (hn : LengthOk n) :
    create cfg n = .next (State.atCreation cfg n) := by
  rw [create, if_neg (not_not.2 ht), if_neg (not_not.2 hn)]

theorem create_malformedTable {cfg : Config} (n : Nat) (h : ¬ cfg.fmtTable.wf) : create cfg n = .refused .malformedTable :=
  if_pos h

theorem create_memoryTooLong {cfg : Config} {n : Nat} (ht : cfg.fmtTable.wf) (h : 2 ^ 32 < n) :
    create cfg n = .refused .memoryTooLong := by
  rw [create, if_neg (not_not.2 ht), if_pos (Nat.not_le.2 h)]

/-! The statements. -/

/-- Settles O33: where pc can be advanced it becomes pc + 4, and where it cannot pc_increment faults. -/
theorem pcIncrementAddsFour : Obligations.PcIncrementAddsFour := by
  intro s
  refine ⟨fun hi hw => ?_, fun hr hlt => ?_, fun hr ho hp => ?_, fun hr ho hp => ?_⟩
  · exact perform_pcIncrement_fault (pcIncrement_unreadable (not_pcReadable.2 ⟨hi, hw⟩))
  · exact ⟨_, pc_add_four_toNat hlt, perform_pcIncrement_next ⟨hr, .inl hlt⟩⟩
  · exact ⟨_, pc_add_four_wraps ho, perform_pcIncrement_next ⟨hr, .inr hp⟩⟩
  · exact perform_pcIncrement_fault (pcIncrement_overflow hr ho hp)

/-- Settles O36: the table is looked at first, and then the length. -/
theorem creationRefusesMalformedParameters : Obligations.CreationRefusesMalformedParameters := by
  intro cfg n
  refine ⟨fun hlow honce hn => ?_, fun ⟨e, he, hlow⟩ => ?_, fun honce => ?_, fun hlow honce hn => ?_⟩
  · exact ⟨_, create_next ((fmtTable_wf_iff _).2 ⟨hlow, honce⟩) hn, rfl⟩
  · exact create_malformedTable n fun hwf => hlow (((fmtTable_wf_iff _).1 hwf).1 e he)
  · exact create_malformedTable n fun hwf => honce hwf.2
  · exact create_memoryTooLong ((fmtTable_wf_iff _).2 ⟨hlow, honce⟩) hn

/-- Settles O37: at creation every flag is clear and every cell 0. -/
theorem registersAtCreation : Obligations.RegistersAtCreation := by
  intro cfg n s hs
  obtain ⟨-, -, rfl⟩ := create_cases hs
  refine ⟨readReg_zero _, fun hi => ⟨readPc_readable (.inl hi), fun r hr => ?_⟩, fun hi => ?_⟩
  · by_cases h0 : r = 0#8
    · rw [h0, readReg_zero]
    · rw [readReg_cell hr h0 (.inl hi)]
      simp
  · have hpc : ¬ (State.atCreation cfg n).pcReadable := not_pcReadable.2 ⟨hi, rfl⟩
    exact ⟨readPc_unreadable hpc, pcIncrement_unreadable hpc, fun r h0 hr => readReg_unwritten hr h0 hi (by simp)⟩

/-- Settles O28: both operations look at the index before they look at any cell or flag. -/
theorem registerIndexesPast31Fault : Obligations.RegisterIndexesPast31Fault := by
  intro n v s h
  exact ⟨perform_regRead_fault (readReg_outOfRange h s), by rw [perform, writeReg_outOfRange h, answerUpdate]⟩

/-- Settles O29: REG_INIT and the flag alone decide between the fault and the cell. -/
theorem unwrittenRegistersFaultWhenRead : Obligations.UnwrittenRegistersFaultWhenRead :=
  fun _ _ h hn => ⟨fun hi hw => perform_regRead_fault (readReg_unwritten h hn hi hw),
    fun hr => perform_regRead_next (readReg_cell h hn hr)⟩

/-- Settles O32: the written flag is set with pc, so that pc may then be read. -/
theorem aPcWriteIsReadBack : Obligations.APcWriteIsReadBack := by
  refine fun v s => ⟨writePc v s, rfl, ?_, rfl⟩
  rw [perform, readPc_readable (.inr (writePc_writtenPc v s)), answerRead, writePc_pc]

/-- Settles O46: the codes are the model's own equations. -/
theorem errorCodes : Obligations.ErrorCodes :=
  ⟨rfl, rfl, rfl, rfl, rfl, rfl⟩

end Sys2Proof.Machine
end

section
/-! The invariant State.Inv (10_state.md sections 1 and 4): every machine that can be made has it, each of the four kinds
of change a transaction makes keeps it, and so every step does; the parameters of a machine are never changed at all. -/

namespace Sys2Proof.Machine

/-! At creation. -/

/-- A machine just created from a legal table and length has the invariant: every flag is clear and every cell 0. -/
theorem State.atCreation_inv {cfg : Config} {n : Nat} (ht : cfg.fmtTable.wf) (hn : LengthOk n) :
    (State.atCreation cfg n).Inv where
  table := ht
  length := hn
  canonical := ⟨List.Pairwise.nil, fun _ hc => absurd hc List.not_mem_nil⟩
  inside := fun _ hc => absurd hc List.not_mem_nil
  zeroCell := rfl
  zeroFlag := rfl
  unwrittenCells := fun n h _ => by simp
  unwrittenPc := fun _ _ => rfl

/-! What each kind of change keeps. -/

/-- The invariant says nothing of the caller's script and replies and of the end of a run. -/
theorem State.Inv.setCaller {s : State} (h : s.Inv) (ts : List Transaction) (q : List Reply) (z : Option ReturnedError) :
    State.Inv { s with script := ts, replies := q, ended := z } where
  __ := h

/-- A write of a register other than x[0] keeps the invariant, since it sets the register's flag. -/
theorem State.Inv.setReg {s : State} (h : s.Inv) {n : RegIndex} (v : Word) (hn : n ≠ 0#8) (hlt : n.toNat < 32) :
    State.Inv { s with x := s.x.set n.toNat v, written := s.written.set n.toNat true } := by
  have h0 : n.toNat ≠ 0 := fun e => hn (BitVec.eq_of_toNat_eq e)
  exact {
    __ := h
    zeroCell := by simpa [Vector.getElem_set_ne, h0] using h.zeroCell
    zeroFlag := by simpa [Vector.getElem_set_ne, h0] using h.zeroFlag
    unwrittenCells := fun m hm hw => by
      by_cases e : n.toNat = m
      · simp [e] at hw
      · rw [Vector.getElem_set_ne _ _ e] at hw ⊢
        exact h.unwrittenCells m hm hw }

/-- A change of pc keeps the invariant where the new pc may be read. -/
theorem State.Inv.setPc {s : State} (h : s.Inv) (p : Word) {b : Bool} (hb : s.cfg.regInit = .zero ∨ b = true) :
    State.Inv { s with pc := p, writtenPc := b } where
  __ := h
  unwrittenPc := fun hi hw => by
    rcases hb with hz | rfl
    · rw [hi] at hz; cases hz
    · cases hw

/-- A memory write in bounds keeps the invariant. -/
theorem State.Inv.setMem {s : State} (h : s.Inv) {a : Word} {n : Nat} (v : BitVec (8 * n)) (hb : s.inBounds a n) :
    State.Inv { s with mem := s.mem.write a.toNat n v } where
  __ := h
  canonical := Memory.wf_write h.canonical _ _ _
  inside := fun c hc => by
    rcases Memory.mem_of_mem_write hc with ⟨-, hlt⟩ | hmem
    · exact Nat.lt_of_lt_of_le hlt hb
    · exact h.inside c hmem

/-! What a transaction and a step keep. -/

/-- Every transaction keeps the invariant. -/
theorem State.Inv.of_perform {s u : State} {t : Transaction} {r : Reply} (h : s.Inv)
    (hp : perform t s = .next (u, r)) : u.Inv := by
  rcases perform_cases hp with rfl | ⟨n, v, hlt, -, hn, -, rfl⟩ | ⟨v, -, -, rfl⟩ | ⟨-, -, ha, rfl⟩ |
    ⟨a, v, -, -, hb, rfl⟩ | ⟨a, v, -, -, hb, rfl⟩ | ⟨a, v, -, -, hb, rfl⟩
  · exact h
  · exact h.setReg v hn hlt
  · exact h.setPc v (.inr rfl)
  · exact h.setPc _ ha.1
  · exact h.setMem (n := 1) v hb
  · exact h.setMem (n := 2) v hb
  · exact h.setMem (n := 4) v hb

/-- Every step keeps the invariant. -/
theorem State.Inv.of_step {s t : State} (h : s.Inv) (hstep : step s = .next t) : t.Inv := by
  rcases step_cases hstep with ⟨tr, rest, u, r, -, hp, rfl⟩ | ⟨-, -, rfl⟩ | ⟨-, -, i, ha, rfl⟩ | ⟨-, -, e, rfl⟩
  · exact ((h.setCaller rest s.replies none).of_perform hp).setCaller _ _ _
  · exact h
  · exact (h.setPc _ ha.1).setCaller _ _ _
  · exact h.setCaller _ _ _

/-- No transaction changes the parameters (10_state.md R35). -/
theorem perform_cfg {t : Transaction} {s u : State} {r : Reply} (h : perform t s = .next (u, r)) : u.cfg = s.cfg := by
  rcases perform_cases h with rfl | ⟨n, v, -, -, -, -, rfl⟩ | ⟨v, -, -, rfl⟩ | ⟨-, -, -, rfl⟩ | ⟨a, v, -, -, -, rfl⟩ |
    ⟨a, v, -, -, -, rfl⟩ | ⟨a, v, -, -, -, rfl⟩ <;> rfl

/-- No step changes the parameters (10_state.md R35). -/
theorem step_cfg {s t : State} (h : step s = .next t) : t.cfg = s.cfg := by
  rcases step_cases h with ⟨tr, rest, u, r, -, hp, rfl⟩ | ⟨-, -, rfl⟩ | ⟨-, -, i, -, rfl⟩ | ⟨-, -, e, rfl⟩
  · exact (perform_cfg hp :)
  all_goals rfl

/-! The statements. -/

/-- Settles O40: a step changes a register, pc or memory, each of which keeps the invariant. -/
theorem everyStepKeepsTheInvariant : Obligations.EveryStepKeepsTheInvariant :=
  fun _ _ => State.Inv.of_step

/-- Settles O39: only a legal table and length make a machine. -/
theorem createdMachinesSatisfyTheInvariant : Obligations.CreatedMachinesSatisfyTheInvariant := by
  intro cfg n s hs
  obtain ⟨ht, hn, rfl⟩ := create_cases hs
  exact State.atCreation_inv ht hn

/-- Settles O38: reset is a creation from the optional table and the whole address space. -/
theorem resetSatisfiesTheInvariant : Obligations.ResetSatisfiesTheInvariant :=
  State.atCreation_inv (by decide) (by decide)

/-- Settles O41: neither the parameters nor the length are changed by any step. -/
theorem noStepChangesTheParameters : Obligations.NoStepChangesTheParameters := by
  intro s t h
  rw [step_cfg h]
  exact ⟨rfl, rfl, rfl, step_memLen h⟩

end Sys2Proof.Machine
end

section
/-! What no operation reads or writes: fsr (42_register_file.md R165) and the caller's side, its waiting transactions,
the replies it holds and the end of a run. An operation on a state that differs only there ends in the same way, and
leaves them as they were. -/

namespace Sys2Proof.Machine

/-! A change of the fields no operation reads, and what it makes of an operation's result. -/

/-- A state with another fsr and another caller's side. -/
def State.withUnread (s : State) (fsr : Word) (ts : List Transaction) (q : List Reply) (z : Option ReturnedError) :
    State :=
  { s with fsr := fsr, script := ts, replies := q, ended := z }

/-- A result's value changed, its error kept. -/
def mapOk {ε α β : Type} (f : α → β) (r : Result ε α) : Result ε β :=
  match r with
  | .ok a => .ok (f a)
  | .err e => .err e

/-- What an operation or a step answers changed, its fault or its refusal kept. -/
def mapNext {α β : Type} (f : α → β) (o : Host.Outcome α Fault Refusal) : Host.Outcome β Fault Refusal :=
  match o with
  | .next a => .next (f a)
  | .fault e => .fault e
  | .refused e => .refused e

section
variable (s : State) (fsr : Word) (ts : List Transaction) (q : List Reply) (z : Option ReturnedError)

/-- A register write reads and writes the register file alone. -/
theorem writeReg_withUnread (n : RegIndex) (v : Word) :
    writeReg n v (s.withUnread fsr ts q z) = mapOk (·.withUnread fsr ts q z) (writeReg n v s) := by
  by_cases h : n.toNat < 32
  · by_cases hn : n = 0#8
    · subst hn
      simp only [writeReg_zero]
      rfl
    · simp only [writeReg_next v _ hn h]
      rfl
  · simp only [writeReg_outOfRange (Nat.not_lt.1 h)]
    rfl

/-- pc_increment reads the parameters, pc and its flag, and writes pc alone. -/
theorem pcIncrement_withUnread :
    pcIncrement (s.withUnread fsr ts q z) = mapOk (·.withUnread fsr ts q z) (pcIncrement s) := by
  cases h : pcIncrement s with
  | ok t =>
    obtain ⟨ha, rfl⟩ := pcIncrement_cases h
    exact pcIncrement_ok ha
  | err f =>
    rcases pcIncrement_fault h with ⟨rfl, hr⟩ | ⟨rfl, hr, hp, ho⟩
    · exact pcIncrement_unreadable hr
    · exact pcIncrement_overflow hr ho hp

/-- A memory write reads the length and writes memory alone. -/
theorem answerWrite_withUnread {n : Nat} (a : Word) (v : BitVec (8 * n)) :
    answerWrite (s.withUnread fsr ts q z) (writeMem n a v (s.withUnread fsr ts q z)) =
      mapNext (fun p => (p.1.withUnread fsr ts q z, p.2)) (answerWrite s (writeMem n a v s)) := by
  by_cases h : s.inBounds a n
  · rw [writeMem_next v h, writeMem_next v (s := s.withUnread fsr ts q z) h]
    rfl
  · have hout : s.memLen < a.toNat + n := Nat.not_le.1 h
    rw [writeMem_outOfBounds v hout, writeMem_outOfBounds v (s := s.withUnread fsr ts q z) hout]
    rfl

/-- A transaction neither reads nor writes fsr and the caller's side. -/
theorem perform_withUnread (t : Transaction) :
    perform t (s.withUnread fsr ts q z) = mapNext (fun p => (p.1.withUnread fsr ts q z, p.2)) (perform t s) := by
  cases t with
  | decode w => cases h : decodeWord s.cfg.fmtTable w <;> simp [perform, answerDecode, State.withUnread, h, mapNext]
  | instrField i f => cases h : i.field f <;> simp [perform, answerField, h, mapNext]
  | extractField k f w => cases h : extract k f w <;> simp [perform, answerField, h, mapNext]
  | regRead n =>
    rw [perform, perform, readReg_congr (s := s) (t := s.withUnread fsr ts q z) rfl rfl rfl n]
    cases readReg n s <;> rfl
  | regWrite n v =>
    rw [perform, perform, writeReg_withUnread]
    cases writeReg n v s <;> rfl
  | pcRead =>
    have h : readPc (s.withUnread fsr ts q z) = readPc s := rfl
    rw [perform, perform, h]
    cases readPc s <;> rfl
  | pcIncrement =>
    rw [perform, perform, pcIncrement_withUnread]
    cases pcIncrement s <;> rfl
  | readU8 a =>
    have h : readU8 a (s.withUnread fsr ts q z) = readU8 a s := rfl
    rw [perform, perform, h]
    cases readU8 a s <;> rfl
  | readU16 a =>
    have h : readU16 a (s.withUnread fsr ts q z) = readU16 a s := rfl
    rw [perform, perform, h]
    cases readU16 a s <;> rfl
  | readU32 a =>
    have h : readU32 a (s.withUnread fsr ts q z) = readU32 a s := rfl
    rw [perform, perform, h]
    cases readU32 a s <;> rfl
  | writeU8 a v => exact answerWrite_withUnread (n := 1) s fsr ts q z a v
  | writeU16 a v => exact answerWrite_withUnread (n := 2) s fsr ts q z a v
  | writeU32 a v => exact answerWrite_withUnread (n := 4) s fsr ts q z a v
  | _ => rfl

end

/-- No transaction changes fsr, the waiting transactions, the replies or the end of a run. -/
theorem perform_unread {t : Transaction} {s u : State} {r : Reply} (h : perform t s = .next (u, r)) :
    u = u.withUnread s.fsr s.script s.replies s.ended := by
  rcases perform_cases h with rfl | ⟨n, v, -, -, -, -, rfl⟩ | ⟨v, -, -, rfl⟩ | ⟨-, -, -, rfl⟩ | ⟨a, v, -, -, -, rfl⟩ |
    ⟨a, v, -, -, -, rfl⟩ | ⟨a, v, -, -, -, rfl⟩ <;> rfl

/-! A transaction as a step (70_reset_and_hazards.md R236). -/

/-- A step with a transaction waiting issues it. -/
theorem step_of_script {s : State} {t : Transaction} {rest : List Transaction} (h : s.script = t :: rest) :
    step s = issue t rest s := by
  rw [step, h]

/-- The step that performs a transaction that answers: the state the transaction leaves, with the rest of the script and
the reply handed over. -/
theorem step_of_perform {s u : State} {t : Transaction} {rest : List Transaction} {r : Reply} (hs : s.script = t :: rest)
    (hp : perform t { s with script := rest, ended := none } = .next (u, r)) :
    step s = .next { u with script := rest, ended := none, replies := r :: s.replies } := by
  have hunread : u = u.withUnread s.fsr rest s.replies none := perform_unread hp
  rw [step_of_script hs, issue, hp]
  dsimp only
  rw [hunread]
  rfl

/-! A step in a state with another fsr. -/

/-- The same state with another fsr. -/
def State.withFsr (s : State) (fsr : Word) : State := { s with fsr := fsr }

section
variable (s : State) (fsr : Word)

theorem issue_withFsr (t : Transaction) (rest : List Transaction) :
    issue t rest (s.withFsr fsr) = mapNext (·.withFsr fsr) (issue t rest s) := by
  have h : perform t { s.withFsr fsr with script := rest, ended := none } = _ :=
    perform_withUnread { s with script := rest, ended := none } fsr rest s.replies none t
  unfold issue
  rw [h]
  cases hp : perform t { s with script := rest, ended := none } with
  | next p =>
    obtain ⟨u, r⟩ := p
    have hunread : u = u.withUnread s.fsr rest s.replies none := perform_unread hp
    rw [hunread]
    rfl
  | fault e => rfl
  | refused e => rfl

theorem handOver_withFsr (i : Instruction) : handOver i (s.withFsr fsr) = mapNext (·.withFsr fsr) (handOver i s) := by
  have h : pcIncrement (s.withFsr fsr) = _ := pcIncrement_withUnread s fsr s.script s.replies s.ended
  unfold handOver
  rw [h]
  cases hp : pcIncrement s with
  | ok t =>
    obtain ⟨-, rfl⟩ := pcIncrement_cases hp
    rfl
  | err f => rfl

theorem execInstruction_withFsr (i : Instruction) :
    execInstruction i (s.withFsr fsr) = mapNext (·.withFsr fsr) (execInstruction i s) := by
  unfold execInstruction
  cases i.toInstr with
  | some j => simp only [exec_eq_handOver, handOver_withFsr]
  | none => exact handOver_withFsr s fsr i

theorem loopOnce_withFsr : loopOnce (s.withFsr fsr) = mapNext (·.withFsr fsr) (loopOnce s) := by
  have hfetch : fetch (s.withFsr fsr) = fetch s := rfl
  unfold loopOnce
  rw [hfetch]
  cases fetch s with
  | err f => rfl
  | ok r =>
    cases r with
    | err e => rfl
    | ok w =>
      have htable : (s.withFsr fsr).cfg.fmtTable = s.cfg.fmtTable := rfl
      dsimp only
      rw [htable]
      cases decodeWord s.cfg.fmtTable w with
      | err e => rfl
      | ok i => exact execInstruction_withFsr s fsr i

/-- A step neither reads nor writes fsr. -/
theorem step_withFsr : step (s.withFsr fsr) = mapNext (·.withFsr fsr) (step s) := by
  cases hs : s.script with
  | cons t rest => rw [step_of_script hs, step_of_script (s := s.withFsr fsr) hs, issue_withFsr]
  | nil =>
    have hs' : (s.withFsr fsr).script = [] := hs
    have he' : (s.withFsr fsr).ended = s.ended := rfl
    unfold step
    rw [hs, hs', he']
    cases s.ended with
    | some e => rfl
    | none => exact loopOnce_withFsr s fsr

end

/-! The statements. -/

/-- Settles O34: no operation a step performs reads fsr. -/
theorem nothingReadsOrWritesFsr : Obligations.NothingReadsOrWritesFsr := by
  refine fun s v => ⟨rfl, rfl, (step_withFsr s v).trans ?_⟩
  cases step s <;> rfl

/-- Settles O42: only the writes that end change a state, and no operation reads the caller's side. -/
theorem returnedErrorsChangeNothing : Obligations.ReturnedErrorsChangeNothing := by
  have hkeeps (t : Transaction) (s u : State) (e : ReturnedError) (h : perform t s = .next (u, .err e)) : u = s := by
    rcases perform_cases h with rfl | ⟨n, v, -, -, -, hr, -⟩ | ⟨v, -, hr, -⟩ | ⟨-, hr, -⟩ | ⟨a, v, -, hr, -⟩ |
      ⟨a, v, -, hr, -⟩ | ⟨a, v, -, hr, -⟩
    · rfl
    all_goals cases hr
  refine ⟨hkeeps, fun t rest s u e hs hp => ?_, fun t s q z => ?_⟩
  · rw [step_of_perform hs hp, hkeeps t _ u e hp]
  · refine (perform_withUnread s s.fsr s.script q z t).trans ?_
    cases hp : perform t s with
    | next p =>
      obtain ⟨u, r⟩ := p
      rw [perform_unread hp]
      rfl
    | fault f => rfl
    | refused e => rfl

/-- Settles O48: a transaction leaves the caller's side to the step. -/
theorem aStepPerformsTheNextTransaction : Obligations.AStepPerformsTheNextTransaction :=
  fun _ _ _ _ _ => step_of_perform

end Sys2Proof.Machine
end

section
/-! The reference loop (70_reset_and_hazards.md sections 2 and 3) and runs of steps: what a pass answers in each of its
cases, that it is the pass told in the block's transactions, which word it runs, why a step faults, and that runs that
have stopped or ended stay as they are. -/

namespace Sys2Proof.Machine

/-! A pass of the loop, case by case (R234, R239). -/

/-- Whether a row of the opcode table is an Instruction's or none is, running it hands it over. -/
theorem execInstruction_eq_handOver (i : Instruction) (s : State) : execInstruction i s = handOver i s := by
  unfold execInstruction
  split
  · next j hj => rw [exec_eq_handOver, ← (toInstr_eq_some_iff i j).1 hj]
  · rfl

theorem loopOnce_unreadable {s : State} (h : ¬ s.pcReadable) : loopOnce s = .fault .unwrittenRead := by
  have hf : fetch s = .err .unwrittenRead := by rw [fetch, readPc_unreadable h]
  rw [loopOnce, hf]

theorem loopOnce_outOfBounds {s : State} (hr : s.pcReadable) (hb : s.memLen < s.pc.toNat + 4) :
    loopOnce s = .next (s.endRun .outOfBounds) := by
  have hf : fetch s = .ok (.err .outOfBounds) := by
    rw [fetch, readPc_readable hr]
    exact congrArg Result.ok (readMem_outOfBounds hb)
  rw [loopOnce, hf]

section
variable {s : State} (hr : s.pcReadable) (hb : s.inBounds s.pc 4)
include hr hb

theorem loopOnce_rejected {e : DecodeError} (hd : decodeWord s.cfg.fmtTable (s.mem.read s.pc.toNat 4) = .err e) :
    loopOnce s = .next (s.endRun (.decode e)) := by
  rw [loopOnce, fetch_next hr hb]
  dsimp only
  rw [hd]

theorem loopOnce_decoded {i : Instruction} (hd : decodeWord s.cfg.fmtTable (s.mem.read s.pc.toNat 4) = .ok i) :
    loopOnce s = handOver i s := by
  rw [loopOnce, fetch_next hr hb]
  dsimp only
  rw [hd]
  exact execInstruction_eq_handOver i s

end

/-! A step with no transaction waiting. -/

/-- After the end of a run a step with no transaction waiting leaves the state as it is (R239). -/
theorem step_of_ended {s : State} (hs : s.script = []) (he : s.ended ≠ none) : step s = .next s := by
  obtain ⟨e, he⟩ := Option.ne_none_iff_exists'.1 he
  rw [step, hs]
  dsimp only
  rw [he]

section
variable {s : State} (hs : s.script = []) (he : s.ended = none)
include hs he

/-- While no run has ended it is a pass of the loop. -/
theorem step_eq_loopOnce : step s = loopOnce s := by
  rw [step, hs]
  dsimp only
  rw [he]

/-- A step that fetches the word of an instruction the table admits runs that instruction. -/
theorem step_of_fetched {i : Instr} (hr : s.pcReadable) (hb : s.inBounds s.pc 4)
    (hw : s.mem.read s.pc.toNat 4 = encode i) (hwf : i.wf s.cfg.fmtTable) : step s = exec i s := by
  have hd : decodeWord s.cfg.fmtTable (s.mem.read s.pc.toNat 4) = .ok (instructionOf i) := by
    rw [hw, decodeWord_encode hwf]
  rw [step_eq_loopOnce hs he, loopOnce_decoded hr hb hd, exec_eq_handOver]

end

/-- The bytes of a word read are the bytes it was read from (20_memory.md R53). -/
theorem bytesOfWord_read (m : Memory) (a : Nat) :
    bytesOfWord (m.read a 4) = [m.byteAt a, m.byteAt (a + 1), m.byteAt (a + 2), m.byteAt (a + 3)] := by
  have h (k : Nat) (hk : k < 4) := Memory.extract_read m a 4 k hk
  simp only [bytesOfWord, List.cons.injEq, and_true]
  exact ⟨h 0 (by decide), h 1 (by decide), h 2 (by decide), h 3 (by decide)⟩

/-- Words with the same bytes are the same. -/
theorem eq_of_bytesOfWord_eq {w w' : Word} (h : bytesOfWord w = bytesOfWord w') : w = w' := by
  simp only [bytesOfWord, List.cons.injEq, and_true] at h
  obtain ⟨h0, h1, h2, h3⟩ := h
  rw [← wordOfBytes_bytes w, h0, h1, h2, h3, wordOfBytes_bytes]

/-! The word placed for the next fetch (log entries 16 and 20). -/

/-- It fits the address space. -/
theorem fetchPlace_fits (s : State) : fetchPlace s + 4 ≤ 2 ^ 32 := by
  unfold fetchPlace
  split
  · next h => exact h
  · decide

/-- A word numbered with all its 32 bits is that word. -/
theorem tableWord_toNat (w : Word) : tableWord 32 w.toNat = w := by
  rw [tableWord, Nat.mod_eq_of_lt w.isLt, BitVec.ofNat_toNat, BitVec.setWidth_eq]

/-! The pass told in transactions (R234). -/

/-- A pc read that is answered. -/
theorem perform_pcRead_cases {s u : State} {r : Reply} (h : perform .pcRead s = .next (u, r)) :
    s.pcReadable ∧ u = s ∧ r = .word s.pc := by
  by_cases hr : s.pcReadable
  · rw [perform, readPc_readable hr] at h
    cases h
    exact ⟨hr, rfl, rfl⟩
  · rw [perform, readPc_unreadable hr] at h
    cases h

/-- A 32-bit read: in bounds the word, out of bounds the returned error. -/
theorem perform_readU32_cases {s u : State} {a : Word} {r : Reply} (h : perform (.readU32 a) s = .next (u, r)) :
    u = s ∧ ((s.inBounds a 4 ∧ r = .word (s.mem.read a.toNat 4)) ∨ (s.memLen < a.toNat + 4 ∧ r = .err .outOfBounds)) := by
  by_cases hb : s.inBounds a 4
  · rw [perform, readU32, readMem_next hb] at h
    cases h
    exact ⟨rfl, .inl ⟨hb, rfl⟩⟩
  · rw [perform, readU32, readMem_outOfBounds (Nat.not_le.1 hb)] at h
    cases h
    exact ⟨rfl, .inr ⟨Nat.not_le.1 hb, rfl⟩⟩

/-- A decode: the Instruction or the returned error, in the state as it was. -/
theorem perform_decode_cases {s u : State} {w : Word} {r : Reply} (h : perform (.decode w) s = .next (u, r)) :
    u = s ∧ ((∃ i, decodeWord s.cfg.fmtTable w = .ok i ∧ r = .instruction i) ∨
      ∃ e, decodeWord s.cfg.fmtTable w = .err e ∧ r = .err (.decode e)) := by
  rw [perform, answerDecode] at h
  split at h
  · next i hd => cases h; exact ⟨rfl, .inl ⟨i, hd, rfl⟩⟩
  · next e hd => cases h; exact ⟨rfl, .inr ⟨e, hd, rfl⟩⟩

/-- A fetch told in transactions that gives a word: the word at a readable pc, in the state as it was. -/
theorem fetched_cases {s u v : State} {a w : Word} (hpc : perform .pcRead s = .next (u, .word a))
    (hword : perform (.readU32 a) u = .next (v, .word w)) :
    s.pcReadable ∧ s.inBounds s.pc 4 ∧ v = s ∧ w = s.mem.read s.pc.toNat 4 := by
  obtain ⟨hr, rfl, ha⟩ := perform_pcRead_cases hpc
  cases ha
  obtain ⟨rfl, ⟨hb, hw⟩ | ⟨-, he⟩⟩ := perform_readU32_cases hword
  · cases hw
    exact ⟨hr, hb, rfl, rfl⟩
  · cases he

/-- Where the pc_increment of a pass faults, so does the hand-over. -/
theorem handOver_of_perform_fault {s : State} {f : Fault} {i : Instruction} (h : perform .pcIncrement s = .fault f) :
    handOver i s = .fault f := by
  rw [perform] at h
  unfold handOver
  cases hp : pcIncrement s with
  | ok t => rw [hp] at h; cases h
  | err g => rw [hp] at h; cases h; rfl

/-- Where the pc_increment of a pass ends, the Instruction is handed over in the state it leaves. -/
theorem handOver_of_perform_next {s t : State} {i : Instruction} (h : perform .pcIncrement s = .next (t, .done)) :
    handOver i s = .next (t.reply (.instruction i)) := by
  rw [perform] at h
  unfold handOver
  cases hp : pcIncrement s with
  | ok u => rw [hp] at h; cases h; rfl
  | err g => rw [hp] at h; cases h

/-- A pass of the loop is a pass told in transactions. -/
theorem loopPass_loopOnce (s : State) : LoopPass s (loopOnce s) := by
  by_cases hr : s.pcReadable
  · have hpc : perform .pcRead s = .next (s, .word s.pc) := by rw [perform, readPc_readable hr, answerRead]
    by_cases hb : s.inBounds s.pc 4
    · have hword : perform (.readU32 s.pc) s = .next (s, .word (s.mem.read s.pc.toNat 4)) := by
        rw [perform, readU32, readMem_next hb, answerValue]
      cases hd : decodeWord s.cfg.fmtTable (s.mem.read s.pc.toNat 4) with
      | err e =>
        rw [loopOnce_rejected hr hb hd]
        exact .notDecoded _ _ _ _ _ _ hpc hword (by rw [perform, answerDecode, hd])
      | ok i =>
        have hins : perform (.decode (s.mem.read s.pc.toNat 4)) s = .next (s, .instruction i) := by
          rw [perform, answerDecode, hd]
        rw [loopOnce_decoded hr hb hd, handOver]
        cases hp : pcIncrement s with
        | err f => exact .notAdvanced _ _ _ _ _ _ _ hpc hword hins (perform_pcIncrement_fault hp)
        | ok t => exact .advanced _ _ _ _ _ _ _ hpc hword hins (by rw [perform, hp, answerUpdate])
    · have hout : s.memLen < s.pc.toNat + 4 := Nat.not_le.1 hb
      rw [loopOnce_outOfBounds hr hout]
      exact .notFetched _ _ _ _ hpc (by rw [perform, readU32, readMem_outOfBounds hout, answerValue])
  · rw [loopOnce_unreadable hr]
    exact .pcNotRead _ (by rw [perform, readPc_unreadable hr, answerRead])

/-- A pass told in transactions has one outcome, that of the pass of the loop. -/
theorem LoopPass.eq_loopOnce {s : State} {o : Host.Outcome State Fault Refusal} (h : LoopPass s o) : loopOnce s = o := by
  cases h with
  | pcNotRead f hpc =>
    by_cases hr : s.pcReadable
    · rw [perform, readPc_readable hr] at hpc
      cases hpc
    · rw [perform, readPc_unreadable hr] at hpc
      cases hpc
      exact loopOnce_unreadable hr
  | notFetched a u v e hpc hword =>
    obtain ⟨hr, rfl, ha⟩ := perform_pcRead_cases hpc
    cases ha
    obtain ⟨rfl, ⟨-, hw⟩ | ⟨hout, he⟩⟩ := perform_readU32_cases hword
    · cases hw
    · cases he
      exact loopOnce_outOfBounds hr hout
  | notDecoded a w u v x e hpc hword hins =>
    obtain ⟨hr, hb, rfl, rfl⟩ := fetched_cases hpc hword
    obtain ⟨rfl, ⟨i, -, hi⟩ | ⟨d, hd, hi⟩⟩ := perform_decode_cases hins
    · cases hi
    · cases hi
      exact loopOnce_rejected hr hb hd
  | notAdvanced a w u v x i f hpc hword hins hinc =>
    obtain ⟨hr, hb, rfl, rfl⟩ := fetched_cases hpc hword
    obtain ⟨rfl, ⟨j, hd, hi⟩ | ⟨e, -, hi⟩⟩ := perform_decode_cases hins
    · cases hi
      exact (loopOnce_decoded hr hb hd).trans (handOver_of_perform_fault hinc)
    · cases hi
  | advanced a w u v x y i hpc hword hins hinc =>
    obtain ⟨hr, hb, rfl, rfl⟩ := fetched_cases hpc hword
    obtain ⟨rfl, ⟨j, hd, hi⟩ | ⟨e, -, hi⟩⟩ := perform_decode_cases hins
    · cases hi
      exact (loopOnce_decoded hr hb hd).trans (handOver_of_perform_next hinc)
    · cases hi

/-! Why a step faults (60_exceptions.md R200 and R206). -/

/-- A step that faults performs a transaction that faults, or is a pass of the loop that does. -/
theorem step_fault {s : State} {f : Fault} (h : step s = .fault f) :
    (∃ t rest, s.script = t :: rest ∧ perform t { s with script := rest, ended := none } = .fault f) ∨
    (s.script = [] ∧ s.ended = none ∧ loopOnce s = .fault f) := by
  cases hs : s.script with
  | cons t rest =>
    rw [step_of_script hs, issue] at h
    split at h
    · cases h
    · next g hp => cases h; exact .inl ⟨t, rest, rfl, hp⟩
    · cases h
  | nil =>
    by_cases he : s.ended = none
    · rw [step_eq_loopOnce hs he] at h
      exact .inr ⟨rfl, he, h⟩
    · rw [step_of_ended hs he] at h
      cases h

/-! Runs (R239, 60_exceptions.md R206 and R207). -/

/-- A run takes its next step where that ends. -/
theorem RunState.advance_next {s t : State} (h : step s = .next t) :
    RunState.advance ⟨s, none⟩ = ⟨t, none⟩ := by
  simp only [RunState.advance, h]

theorem RunState.go_add (r : RunState) (k n : Nat) : r.go (k + n) = (r.go k).go n := by
  induction k generalizing r with
  | zero => rw [Nat.zero_add, RunState.go]
  | succ k ih => rw [Nat.succ_add, RunState.go, ih, RunState.go]

/-- A run that one more step leaves as it is stays as it is. -/
theorem RunState.go_of_advance {r : RunState} (h : r.advance = r) (k : Nat) : r.go k = r := by
  induction k with
  | zero => rfl
  | succ k ih => rw [RunState.go, h, ih]

/-- Under REG_INIT = zero and PC_OVERFLOW = wrap a step with no transaction waiting answers a next state, in which
none waits either. -/
theorem step_of_zero_wrap {s : State} (hs : s.script = []) (hi : s.cfg.regInit = .zero)
    (hp : s.cfg.pcOverflow = .wrap) : ∃ t, step s = .next t ∧ t.script = [] := by
  cases h : step s with
  | next t =>
    refine ⟨t, rfl, ?_⟩
    rcases step_cases h with ⟨tr, rest, u, r, hs', -⟩ | ⟨-, -, rfl⟩ | ⟨-, -, i, -, rfl⟩ | ⟨-, -, e, rfl⟩
    · rw [hs] at hs'; cases hs'
    all_goals exact hs
  | fault f =>
    rcases step_fault h with ⟨t, rest, hs', -⟩ | ⟨-, -, hloop⟩
    · rw [hs] at hs'; cases hs'
    · rcases loopOnce_fault hloop with ⟨-, hr⟩ | ⟨-, -, hp', -⟩
      · exact absurd (.inl hi) hr
      · rw [hp] at hp'; cases hp'
  | refused e =>
    exfalso
    by_cases he : s.ended = none
    · exact loopOnce_not_refused ((step_eq_loopOnce hs he).symm.trans h)
    · rw [step_of_ended hs he] at h
      cases h

/-! The statements. -/

/-- Settles O49: the pass told in transactions holds of the outcome of the pass of the loop, and of no other. -/
theorem aStepIsOnePassOfTheReferenceLoop : Obligations.AStepIsOnePassOfTheReferenceLoop := by
  intro s o hs he
  rw [step_eq_loopOnce hs he]
  exact ⟨fun h => h ▸ loopPass_loopOnce s, LoopPass.eq_loopOnce⟩

/-- Settles O45, by induction on the number of steps. -/
theorem theLoopIsSafeUnderZeroAndWrap : Obligations.TheLoopIsSafeUnderZeroAndWrap := by
  intro k
  induction k with
  | zero => exact fun s _ _ _ => rfl
  | succ k ih =>
    intro s hs hi hp
    obtain ⟨t, hstep, ht⟩ := step_of_zero_wrap hs hi hp
    have hcfg := step_cfg hstep
    rw [SafeRun, RunState.go, RunState.advance_next hstep]
    exact ih t ht (hcfg ▸ hi) (hcfg ▸ hp)

/-- Settles O43: a step faults where its transaction or its pass does, for the causes of that one. -/
theorem stepsFaultOnlyForNamedCauses : Obligations.StepsFaultOnlyForNamedCauses := by
  refine fun s => ⟨fun h => ?_, fun h => ?_, fun h => ?_⟩
  · rcases step_fault h with ⟨t, rest, hs, hp⟩ | ⟨-, -, hl⟩
    · rcases perform_fault hp with ⟨hf, -⟩ | ⟨hf, -⟩ | ⟨hf, -⟩ | ⟨-, n, hn, ht⟩
      case inr.inr.inr =>
        rcases ht with rfl | ⟨v, rfl⟩
        · exact ⟨n, rest, hn, .inl hs⟩
        · exact ⟨n, rest, hn, .inr ⟨v, hs⟩⟩
      all_goals cases hf
    · rcases loopOnce_fault hl with ⟨hf, -⟩ | ⟨hf, -⟩
      all_goals cases hf
  · rcases step_fault h with ⟨t, rest, hs, hp⟩ | ⟨hs, he, hl⟩
    · rcases perform_fault hp with ⟨-, hi, n, h0, rfl, hw⟩ | ⟨-, hr, ht⟩ | ⟨hf, -⟩ | ⟨hf, -⟩
      · exact ⟨hi, .inl ⟨n, rest, h0, hs, hw⟩⟩
      · obtain ⟨hi, hw⟩ := not_pcReadable.1 hr
        have hscript : s.script = .pcRead :: rest ∨ s.script = .pcIncrement :: rest := by
          rcases ht with rfl | rfl
          · exact .inl hs
          · exact .inr hs
        exact ⟨hi, .inr ⟨hw, .inl ⟨rest, hscript⟩⟩⟩
      all_goals cases hf
    · rcases loopOnce_fault hl with ⟨-, hr⟩ | ⟨hf, -⟩
      · obtain ⟨hi, hw⟩ := not_pcReadable.1 hr
        exact ⟨hi, .inr ⟨hw, .inr ⟨hs, he⟩⟩⟩
      · cases hf
  · have hhigh {p : Word} (ho : 2 ^ 32 ≤ p.toNat + 4) : 0xFFFFFFFC ≤ p.toNat := by omega
    rcases step_fault h with ⟨t, rest, hs, hp⟩ | ⟨hs, he, hl⟩
    · rcases perform_fault hp with ⟨hf, -⟩ | ⟨hf, -⟩ | ⟨-, hr, hpo, ho, rfl⟩ | ⟨hf, -⟩
      case inr.inr.inl => exact ⟨hpo, hr, hhigh ho, .inl ⟨rest, hs⟩⟩
      all_goals cases hf
    · rcases loopOnce_fault hl with ⟨hf, -⟩ | ⟨-, hr, hpo, ho⟩
      · cases hf
      · exact ⟨hpo, hr, hhigh ho, .inr ⟨hs, he⟩⟩

/-- Settles O44: a stopped run is not advanced, and the step after the end of a run changes nothing. -/
theorem anEndedRunStaysEnded : Obligations.AnEndedRunStaysEnded := by
  intro r k n
  have hstops {e : Stop} (h : r.advance = ⟨r.state, some e⟩) : r.go (k + 1) = ⟨r.state, some e⟩ := by
    rw [RunState.go, h, RunState.go_of_stop (Option.some_ne_none e)]
  refine ⟨fun h => ?_, fun f hn hf => hstops ?_, fun e hn he => hstops ?_, fun hs he => ?_⟩
  · rw [RunState.go_add, RunState.go_of_stop h]
  · simp only [RunState.advance, hn, hf]
  · simp only [RunState.advance, hn, he]
  · obtain ⟨s, stop⟩ := r
    cases stop with
    | none => exact RunState.go_of_advance (RunState.advance_next (step_of_ended hs he)) k
    | some e => exact RunState.go_of_advance rfl k

/-- Settles O50: the stored word is read back at pc, which the store leaves as it was. -/
theorem aFetchSeesAStoreToCode : Obligations.AFetchSeesAStoreToCode := by
  intro s w i hs hr hb hd
  obtain ⟨rfl, hwf⟩ := (decodeInstr_eq_ok_iff _ _ _).1 hd
  have hp : perform (.writeU32 s.pc (encode i)) { s with script := [], ended := none } =
      .next ({ s with script := [], ended := none, mem := s.mem.write s.pc.toNat 4 (encode i) }, .done) :=
    congrArg (answerWrite _) (writeMem_next (n := 4) (s := { s with script := [], ended := none }) _ hb)
  exact ⟨_, step_of_perform hs hp, rfl, step_of_fetched rfl rfl hr hb (Memory.read_write_same _ _ 4 _) hwf⟩

/-- Settles O52: the word is placed where the next fetch reads, pc may be read there and the memory holds all of it. -/
theorem aPlacedInstructionRunsNext : Obligations.APlacedInstructionRunsNext := by
  intro s i hwf
  have hpc : (s.withFetchWord 32 (encode i).toNat).pc.toNat = fetchPlace s := by
    have hfits := fetchPlace_fits s
    rw [State.withFetchWord_pc, BitVec.toNat_ofNat, Nat.mod_eq_of_lt (by omega)]
  refine step_of_fetched rfl rfl ?_ ?_ ?_ hwf
  · cases hi : s.cfg.regInit with
    | zero => exact .inl hi
    | unwritten => exact .inr (by simp [hi])
  · rw [State.inBounds, hpc]
    exact le_max_right _ _
  · rw [hpc, State.withFetchWord_mem, Memory.read_write_same, tableWord_toNat]

/-- Settles O47: the four bytes are the instruction's word, which is the word fetched. -/
theorem aStepRunsTheDecodedInstruction : Obligations.AStepRunsTheDecodedInstruction := by
  intro s i hs he hr hb hd
  obtain ⟨hbytes, hwf⟩ := (decodeBytes_eq_ok_iff _ _ _ _).1 hd
  rw [List.append_nil, ← bytesOfWord_read] at hbytes
  exact step_of_fetched hs he hr hb (eq_of_bytesOfWord_eq hbytes) hwf

/-- Settles O51: the three first errors of a pass, and an end of a run that the next step leaves as it is. -/
theorem theLoopEndsAtItsFirstError : Obligations.TheLoopEndsAtItsFirstError := by
  intro s hs he
  rw [step_eq_loopOnce hs he]
  refine ⟨loopOnce_unreadable, loopOnce_outOfBounds, fun w e hr hw hd => ?_, fun t e ht hte => ?_⟩
  · obtain ⟨hb, rfl⟩ := readMem_cases (n := 4) hw
    exact loopOnce_rejected hr hb hd
  · rcases loopOnce_cases ht with ⟨i, -, rfl⟩ | ⟨d, rfl⟩
    · exact absurd (he.symm.trans hte) (Option.some_ne_none e).symm
    · exact step_of_ended hs (Option.some_ne_none d)

end Sys2Proof.Machine
end

section
/-! The instructions of 41_decoder.md section 4 in the reference loop: the word each format's encoder makes as a sum of
its fields at their places, what an instruction that completes does and hands over, what it leaves unchanged, and where
it stops. -/

namespace Sys2Proof

/-! A word built field by field, as a number (30_encoding.md R74 to R79). -/

/-- A field put below the fields already placed adds its value at its place. -/
theorem or_place_toNat {x : Word} {n lo sum : Nat} (hx : x.toNat = sum) (v : BitVec n) (hfit : n + lo ≤ 32)
    (hbelow : 2 ^ (n + lo) ∣ sum) : (x ||| place lo v).toNat = sum + v.toNat * 2 ^ lo := by
  have hv : v.toNat * 2 ^ lo < 2 ^ (n + lo) := by
    rw [pow_add]
    exact Nat.mul_lt_mul_of_pos_right v.isLt (by positivity)
  rw [BitVec.toNat_or, hx, place_toNat v hfit, or_eq_add hbelow hv]

/-- The opcode, put below the fields, adds its value. -/
theorem or_opcode_toNat {x : Word} {sum : Nat} (hx : x.toNat = sum) (o : Opcode) (hbelow : 2 ^ 7 ∣ sum) :
    (x ||| place 0 o).toNat = sum + o.toNat := by
  rw [or_place_toNat hx o (by decide) hbelow, pow_zero, mul_one]

section
variable (rd rs1 rs2 : RegField) (imm : BitVec 12) (upper : BitVec 20) (offset : BitVec 25) (funct3 : BitVec 3)
  (funct10 : BitVec 10) (o : Opcode)

theorem encodeI_toNat : (encodeI rd rs1 imm funct3 o).toNat =
    rd.toNat * 2 ^ 27 + rs1.toNat * 2 ^ 22 + imm.toNat * 2 ^ 10 + funct3.toNat * 2 ^ 7 + o.toNat := by
  have hrd := place_toNat (lo := 27) rd (by decide)
  have hrs1 := or_place_toNat (lo := 22) hrd rs1 (by decide) (by omega)
  have himm := or_place_toNat (lo := 10) hrs1 imm (by decide) (by omega)
  have hfunct3 := or_place_toNat (lo := 7) himm funct3 (by decide) (by omega)
  exact or_opcode_toNat hfunct3 o (by omega)

theorem encodeB_toNat : (encodeB rs1 rs2 imm funct3 o).toNat =
    imm.toNat / 2 ^ 7 * 2 ^ 27 + rs1.toNat * 2 ^ 22 + rs2.toNat * 2 ^ 17 + imm.toNat % 2 ^ 7 * 2 ^ 10 +
      funct3.toNat * 2 ^ 7 + o.toNat := by
  have himm := imm.isLt
  have hhighPart : (imm.extractLsb' 7 5).toNat = imm.toNat / 2 ^ 7 := by
    rw [BitVec.extractLsb'_toNat, Nat.shiftRight_eq_div_pow]
    omega
  have hlowPart : (imm.extractLsb' 0 7).toNat = imm.toNat % 2 ^ 7 := by
    rw [BitVec.extractLsb'_toNat, Nat.shiftRight_zero]
  have hhigh := place_toNat (lo := 27) (imm.extractLsb' 7 5) (by decide)
  have hrs1 := or_place_toNat (lo := 22) hhigh rs1 (by decide) (by omega)
  have hrs2 := or_place_toNat (lo := 17) hrs1 rs2 (by decide) (by omega)
  have hlow := or_place_toNat (lo := 10) hrs2 (imm.extractLsb' 0 7) (by decide) (by omega)
  have hfunct3 := or_place_toNat (lo := 7) hlow funct3 (by decide) (by omega)
  rw [← hhighPart, ← hlowPart]
  exact or_opcode_toNat hfunct3 o (by omega)

theorem encodeL_toNat : (encodeL rd upper o).toNat = rd.toNat * 2 ^ 27 + upper.toNat * 2 ^ 7 + o.toNat := by
  have hrd := place_toNat (lo := 27) rd (by decide)
  have hupper := or_place_toNat (lo := 7) hrd upper (by decide) (by omega)
  exact or_opcode_toNat hupper o (by omega)

theorem encodeR_toNat : (encodeR rd rs1 rs2 funct10 o).toNat =
    rd.toNat * 2 ^ 27 + rs1.toNat * 2 ^ 22 + rs2.toNat * 2 ^ 17 + funct10.toNat * 2 ^ 7 + o.toNat := by
  have hrd := place_toNat (lo := 27) rd (by decide)
  have hrs1 := or_place_toNat (lo := 22) hrd rs1 (by decide) (by omega)
  have hrs2 := or_place_toNat (lo := 17) hrs1 rs2 (by decide) (by omega)
  have hfunct10 := or_place_toNat (lo := 7) hrs2 funct10 (by decide) (by omega)
  exact or_opcode_toNat hfunct10 o (by omega)

theorem encodeJ_toNat : (encodeJ offset o).toNat = offset.toNat * 2 ^ 7 + o.toNat := by
  have hoffset := place_toNat (lo := 7) offset (by decide)
  exact or_opcode_toNat hoffset o (by omega)

end

end Sys2Proof

namespace Sys2Proof.Machine

/-- Where pc can be advanced an instruction completes with its own word, opcode and format (70_reset_and_hazards.md
R234). -/
theorem completesAs {i : Instr} {s : State} {word : Nat} (h : s.pcAdvances) (hw : (encode i).toNat = word) :
    CompletesAs i s word i.opcode i.format :=
  ⟨instructionOf i, hw, (Laws.encoding_statement i).1, rfl, by rw [exec_eq_handOver, handOver_next h]; rfl⟩

/-- Where pc_increment faults an instruction ends in that fault. -/
theorem exec_fault {i : Instr} {s : State} {f : Fault} (h : pcIncrement s = .err f) : exec i s = .fault f := by
  rw [exec_eq_handOver, handOver, h]

/-! The statements. -/

/-- Settles O53: the four words differ in their opcode alone. -/
theorem formatIInstructionsComplete : Obligations.FormatIInstructionsComplete :=
  fun _ rd rs1 imm funct3 h => ⟨completesAs h (encodeI_toNat rd rs1 imm funct3 _),
    completesAs h (encodeI_toNat rd rs1 imm funct3 _), completesAs h (encodeI_toNat rd rs1 imm funct3 _),
    completesAs h (encodeI_toNat rd rs1 imm funct3 _)⟩

/-- Settles O54: the two words differ in their opcode alone. -/
theorem formatBInstructionsComplete : Obligations.FormatBInstructionsComplete :=
  fun _ rs1 rs2 imm funct3 h => ⟨completesAs h (encodeB_toNat rs1 rs2 imm funct3 _),
    completesAs h (encodeB_toNat rs1 rs2 imm funct3 _)⟩

/-- Settles O55: the two words differ in their opcode alone. -/
theorem formatLInstructionsComplete : Obligations.FormatLInstructionsComplete :=
  fun _ rd imm h => ⟨completesAs h (encodeL_toNat rd imm _), completesAs h (encodeL_toNat rd imm _)⟩

/-- Settles O56: each word is its own format's. -/
theorem opAndJalComplete : Obligations.OpAndJalComplete :=
  fun _ rd rs1 rs2 funct10 offset h => ⟨completesAs h (encodeR_toNat rd rs1 rs2 funct10 _),
    completesAs h (encodeJ_toNat offset _)⟩

/-- Settles O57: an instruction that answers has advanced pc and added its reply, and no more. -/
theorem instructionsChangeOnlyPc : Obligations.InstructionsChangeOnlyPc := by
  intro i s t h
  rw [exec_eq_handOver] at h
  obtain ⟨-, rfl⟩ := handOver_cases h
  exact ⟨rfl, rfl, rfl, rfl, fun _ => rfl, rfl, rfl, rfl, rfl, rfl, rfl⟩

/-- Settles O58: an instruction stops where its pc_increment faults. -/
theorem instructionsStopWherePcCannotAdvance : Obligations.InstructionsStopWherePcCannotAdvance :=
  fun _ _ => ⟨fun hr => exec_fault (pcIncrement_unreadable hr), fun hr ho hp => exec_fault (pcIncrement_overflow hr ho hp)⟩

end Sys2Proof.Machine
end
